-- ==== Sys2Proof/Word.lean ====
section
/-! DEFINITION. The word types of the machine (00_scope R6, R10, R11; 30_encoding R71). -/

namespace Sys2Proof

/-- The 8-bit unsigned value of a general register, a timer or a memory byte. -/
abbrev Byte := BitVec 8

/-- The 16-bit unsigned value of PC, I, a stack slot or an instruction word. -/
abbrev Word := BitVec 16

/-- The 12-bit immediate NNN. -/
abbrev Addr := BitVec 12

/-- One 4-bit field of an instruction word. -/
abbrev Nibble := BitVec 4

/-- The number of a general register, V0 to VF (10_state R22). -/
abbrev Reg := Fin 16

/-- The number of a key, 0x0 to 0xF (10_state R29). -/
abbrev Key := Fin 16

/-- VF, the flag register (10_state R23). -/
abbrev vF : Reg := 15

/-- The sixteen register or key numbers in ascending order. -/
def allIndices : List (Fin 16) := [0, 1, 2, 3, 4, 5, 6, 7, 8, 9, 10, 11, 12, 13, 14, 15]

end Sys2Proof
end

