-- ==== Sys2Proof/Syntax.lean ====
section
/-! DEFINITION. The instructions: one constructor per row of spec/opcode_table.json, in the table's order
(30_encoding R75, R76). Operands are the fields of 30_encoding R71. -/

namespace Sys2Proof

/-- An instruction of the CHIP-8 core. The six `reserved` constructors are the reserved words of each family; which field
values they may hold is `Instr.WellFormed`. -/
inductive Instr where
  /-- 00E0 `CLS` (44_display R170). -/
  | cls
  /-- 00EE `RET` (41_control_flow R100). -/
  | ret
  /-- 1NNN `JP NNN` (R101). -/
  | jp (nnn : Addr)
  /-- 2NNN `CALL NNN` (R102). -/
  | call (nnn : Addr)
  /-- 3XNN `SE VX, NN` (R103). -/
  | seImm (x : Reg) (nn : Byte)
  /-- 4XNN `SNE VX, NN` (R104). -/
  | sneImm (x : Reg) (nn : Byte)
  /-- 5XY0 `SE VX, VY` (R105). -/
  | seReg (x y : Reg)
  /-- 6XNN `LD VX, NN` (42_alu R121). -/
  | ldImm (x : Reg) (nn : Byte)
  /-- 7XNN `ADD VX, NN` (R122). -/
  | addImm (x : Reg) (nn : Byte)
  /-- 8XY0 `LD VX, VY` (R126). -/
  | ldReg (x y : Reg)
  /-- 8XY1 `OR VX, VY` (R127). -/
  | orReg (x y : Reg)
  /-- 8XY2 `AND VX, VY` (R128). -/
  | andReg (x y : Reg)
  /-- 8XY3 `XOR VX, VY` (R129). -/
  | xorReg (x y : Reg)
  /-- 8XY4 `ADD VX, VY` (R130). -/
  | addReg (x y : Reg)
  /-- 8XY5 `SUB VX, VY` (R131). -/
  | subReg (x y : Reg)
  /-- 8XY6 `SHR VX, VY` (R132). -/
  | shr (x y : Reg)
  /-- 8XY7 `SUBN VX, VY` (R133). -/
  | subn (x y : Reg)
  /-- 8XYE `SHL VX, VY` (R134). -/
  | shl (x y : Reg)
  /-- 9XY0 `SNE VX, VY` (41_control_flow R106). -/
  | sneReg (x y : Reg)
  /-- ANNN `LD I, NNN` (43_index_memory R150). -/
  | ldI (nnn : Addr)
  /-- BNNN `JP V0, NNN` (41_control_flow R107). -/
  | jpV0 (nnn : Addr)
  /-- CXNN `RND VX, NN` (42_alu R139). -/
  | rnd (x : Reg) (nn : Byte)
  /-- DXYN `DRW VX, VY, N` (44_display R171). -/
  | drw (x y : Reg) (n : Nibble)
  /-- EX9E `SKP VX` (45_keypad_timer_ops R190). -/
  | skp (x : Reg)
  /-- EXA1 `SKNP VX` (R191). -/
  | sknp (x : Reg)
  /-- FX07 `LD VX, DT` (R192). -/
  | ldFromDT (x : Reg)
  /-- FX0A `LD VX, K` (R195). -/
  | ldKey (x : Reg)
  /-- FX15 `LD DT, VX` (R193). -/
  | ldDT (x : Reg)
  /-- FX18 `LD ST, VX` (R194). -/
  | ldST (x : Reg)
  /-- FX1E `ADD I, VX` (43_index_memory R151). -/
  | addI (x : Reg)
  /-- FX29 `LD F, VX` (R152). -/
  | ldFont (x : Reg)
  /-- FX33 `LD B, VX` (R156). -/
  | ldBcd (x : Reg)
  /-- FX55 `LD [I], VX` (R157). -/
  | storeRegs (x : Reg)
  /-- FX65 `LD VX, [I]` (R160). -/
  | loadRegs (x : Reg)
  /-- 0NNN other than 00E0 and 00EE: reserved (30_encoding R76, R77). -/
  | reserved0 (nnn : Addr)
  /-- 5XYN with N not 0: reserved (R76). -/
  | reserved5 (x y : Reg) (n : Nibble)
  /-- 8XYN with N in 8-D or F: reserved (R76, 42_alu R135). -/
  | reserved8 (x y : Reg) (n : Nibble)
  /-- 9XYN with N not 0: reserved (R76). -/
  | reserved9 (x y : Reg) (n : Nibble)
  /-- EXNN with NN not 9E or A1: reserved (R76). -/
  | reservedE (x : Reg) (nn : Byte)
  /-- FXNN with NN none of the nine sub-operations: reserved (R76). -/
  | reservedF (x : Reg) (nn : Byte)
  deriving DecidableEq, Repr

end Sys2Proof
end

