-- ==== Sys2Proof/WellFormed.lean ====
section
/-! DEFINITION. Which field values a reserved constructor may hold (30_encoding R76). Every other constructor is well
formed at every field value: no register or immediate encoding is reserved (R72, R73). -/

namespace Sys2Proof

/-- The sub-operations of family 8 that are instructions (30_encoding R75). -/
def family8Subops : List Nibble := [0x0, 0x1, 0x2, 0x3, 0x4, 0x5, 0x6, 0x7, 0xE]

/-- The sub-operations of family E that are instructions (30_encoding R75). -/
def familyESubops : List Byte := [0x9E, 0xA1]

/-- The sub-operations of family F that are instructions (30_encoding R75). -/
def familyFSubops : List Byte := [0x07, 0x0A, 0x15, 0x18, 0x1E, 0x29, 0x33, 0x55, 0x65]

/-- A reserved constructor holds only field values that no defined row of its family has (30_encoding R76). -/
def Instr.WellFormed : Instr → Bool
  | .reserved0 nnn => nnn != 0x0E0 && nnn != 0x0EE
  | .reserved5 _ _ n => n != 0
  | .reserved8 _ _ n => !family8Subops.contains n
  | .reserved9 _ _ n => n != 0
  | .reservedE _ nn => !familyESubops.contains nn
  | .reservedF _ nn => !familyFSubops.contains nn
  | .cls | .ret | .jp _ | .call _ | .seImm _ _ | .sneImm _ _ | .seReg _ _ | .ldImm _ _ | .addImm _ _ => true
  | .ldReg _ _ | .orReg _ _ | .andReg _ _ | .xorReg _ _ | .addReg _ _ | .subReg _ _ | .shr _ _ | .subn _ _ | .shl _ _ => true
  | .sneReg _ _ | .ldI _ | .jpV0 _ | .rnd _ _ | .drw _ _ _ | .skp _ | .sknp _ | .ldFromDT _ | .ldKey _ | .ldDT _ => true
  | .ldST _ | .addI _ | .ldFont _ | .ldBcd _ | .storeRegs _ | .loadRegs _ => true

end Sys2Proof
end

