-- ==== Sys2Proof/Decode.lean ====
section
/-! DEFINITION. The decoder and the encoder (30_encoding R70-R81; byte order 20_memory R57). Every 16-bit word decodes
(R81); only a byte list that ends inside an instruction is rejected. The encodings of all rows but 00E0, 1NNN, 6XNN, ANNN
and DXYN are PRESUMED: the spec takes them from general knowledge (R78; log entry 10). -/

namespace Sys2Proof

/-! ### The fields of a word (30_encoding R71) -/

/-- F = op[15:12], the family selector. -/
def fieldF (op : Word) : Nibble := op.extractLsb' 12 4

/-- X = op[11:8], a register number. -/
def fieldX (op : Word) : Reg := (op.extractLsb' 8 4).toFin

/-- Y = op[7:4], a register number. -/
def fieldY (op : Word) : Reg := (op.extractLsb' 4 4).toFin

/-- N = op[3:0]. -/
def fieldN (op : Word) : Nibble := op.extractLsb' 0 4

/-- NN = op[7:0]. -/
def fieldNN (op : Word) : Byte := op.extractLsb' 0 8

/-- NNN = op[11:0]. -/
def fieldNNN (op : Word) : Addr := op.extractLsb' 0 12

/-! ### The decoder (30_encoding R75, R76) -/

/-- Family 0: 00E0 and 00EE are matched on all 16 bits; every other word is reserved (30_encoding R77). -/
def decodeFamily0 (op : Word) : Instr :=
  if fieldNNN op = 0x0E0 then .cls
  else if fieldNNN op = 0x0EE then .ret
  else .reserved0 (fieldNNN op)

/-- Family 8: the register-register ALU, selected by N (30_encoding R75). -/
def decodeFamily8 (op : Word) : Instr :=
  match (fieldN op).toNat with
  | 0x0 => .ldReg (fieldX op) (fieldY op)
  | 0x1 => .orReg (fieldX op) (fieldY op)
  | 0x2 => .andReg (fieldX op) (fieldY op)
  | 0x3 => .xorReg (fieldX op) (fieldY op)
  | 0x4 => .addReg (fieldX op) (fieldY op)
  | 0x5 => .subReg (fieldX op) (fieldY op)
  | 0x6 => .shr (fieldX op) (fieldY op)
  | 0x7 => .subn (fieldX op) (fieldY op)
  | 0xE => .shl (fieldX op) (fieldY op)
  | _ => .reserved8 (fieldX op) (fieldY op) (fieldN op)

/-- Family E: the key skips, selected by NN (30_encoding R75). -/
def decodeFamilyE (op : Word) : Instr :=
  match (fieldNN op).toNat with
  | 0x9E => .skp (fieldX op)
  | 0xA1 => .sknp (fieldX op)
  | _ => .reservedE (fieldX op) (fieldNN op)

/-- Family F: timers, keys, index and memory, selected by NN (30_encoding R75). -/
def decodeFamilyF (op : Word) : Instr :=
  match (fieldNN op).toNat with
  | 0x07 => .ldFromDT (fieldX op)
  | 0x0A => .ldKey (fieldX op)
  | 0x15 => .ldDT (fieldX op)
  | 0x18 => .ldST (fieldX op)
  | 0x1E => .addI (fieldX op)
  | 0x29 => .ldFont (fieldX op)
  | 0x33 => .ldBcd (fieldX op)
  | 0x55 => .storeRegs (fieldX op)
  | 0x65 => .loadRegs (fieldX op)
  | _ => .reservedF (fieldX op) (fieldNN op)

/-- The row of 30_encoding R75 that `op` selects, or the reserved no-op of R76: total on the 65,536 words (R81). -/
def decode (op : Word) : Instr :=
  match (fieldF op).toNat with
  | 0x0 => decodeFamily0 op
  | 0x1 => .jp (fieldNNN op)
  | 0x2 => .call (fieldNNN op)
  | 0x3 => .seImm (fieldX op) (fieldNN op)
  | 0x4 => .sneImm (fieldX op) (fieldNN op)
  | 0x5 => if fieldN op = 0 then .seReg (fieldX op) (fieldY op) else .reserved5 (fieldX op) (fieldY op) (fieldN op)
  | 0x6 => .ldImm (fieldX op) (fieldNN op)
  | 0x7 => .addImm (fieldX op) (fieldNN op)
  | 0x8 => decodeFamily8 op
  | 0x9 => if fieldN op = 0 then .sneReg (fieldX op) (fieldY op) else .reserved9 (fieldX op) (fieldY op) (fieldN op)
  | 0xA => .ldI (fieldNNN op)
  | 0xB => .jpV0 (fieldNNN op)
  | 0xC => .rnd (fieldX op) (fieldNN op)
  | 0xD => .drw (fieldX op) (fieldY op) (fieldN op)
  | 0xE => decodeFamilyE op
  | _ => decodeFamilyF op

/-! ### Bytes: every instruction is two bytes, the high byte first (20_memory R57, 30_encoding R70) -/

/-- The word of two bytes, the first of them at the lower address (20_memory R57). -/
def wordOfBytes (hi lo : Byte) : Word := hi ++ lo

/-- The two bytes of a word in the order they lie in memory (20_memory R57). -/
def bytesOfWord (op : Word) : List Byte := [op.extractLsb' 8 8, op.extractLsb' 0 8]

/-- Why a byte list is no instruction: the decoder always consumes two bytes (30_encoding R70). -/
inductive DecodeError where
  /-- Fewer than two bytes are left. Raised by `decodeBytes` only; a fetch always has two bytes (40_execution R91). Safe. -/
  | truncated
  deriving DecidableEq, Repr

/-- The first instruction of a byte list, with the bytes after it. -/
def decodeBytes : List Byte → Except DecodeError (Instr × List Byte)
  | hi :: lo :: rest => .ok (decode (wordOfBytes hi lo), rest)
  | [_] => .error .truncated
  | [] => .error .truncated

/-- The instruction of a word numbered as spec/opcode_table.json numbers its bits: the word is laid out in memory order and
given to `decodeBytes`; bits from `nbits` up are 0. -/
def decodeTableWord (nbits w : Nat) : Option Instr :=
  match decodeBytes (bytesOfWord (BitVec.ofNat 16 (w % 2 ^ nbits))) with
  | .ok (i, _) => some i
  | .error _ => none

/-! ### The encoder, from the same rows (30_encoding R75, R76) -/

/-- The word with fields F, X, Y, N (30_encoding R71). -/
def wordFXYN (f : Nibble) (x y : Reg) (n : Nibble) : Word := f ++ BitVec.ofFin (w := 4) x ++ BitVec.ofFin (w := 4) y ++ n

/-- The word with fields F, X, NN (30_encoding R71). -/
def wordFXNN (f : Nibble) (x : Reg) (nn : Byte) : Word := f ++ BitVec.ofFin (w := 4) x ++ nn

/-- The word with fields F, NNN (30_encoding R71). -/
def wordFNNN (f : Nibble) (nnn : Addr) : Word := f ++ nnn

/-- The word of an instruction (30_encoding R75; of a reserved one, R76). -/
def encode : Instr → Word
  | .cls => 0x00E0
  | .ret => 0x00EE
  | .jp nnn => wordFNNN 0x1 nnn
  | .call nnn => wordFNNN 0x2 nnn
  | .seImm x nn => wordFXNN 0x3 x nn
  | .sneImm x nn => wordFXNN 0x4 x nn
  | .seReg x y => wordFXYN 0x5 x y 0x0
  | .ldImm x nn => wordFXNN 0x6 x nn
  | .addImm x nn => wordFXNN 0x7 x nn
  | .ldReg x y => wordFXYN 0x8 x y 0x0
  | .orReg x y => wordFXYN 0x8 x y 0x1
  | .andReg x y => wordFXYN 0x8 x y 0x2
  | .xorReg x y => wordFXYN 0x8 x y 0x3
  | .addReg x y => wordFXYN 0x8 x y 0x4
  | .subReg x y => wordFXYN 0x8 x y 0x5
  | .shr x y => wordFXYN 0x8 x y 0x6
  | .subn x y => wordFXYN 0x8 x y 0x7
  | .shl x y => wordFXYN 0x8 x y 0xE
  | .sneReg x y => wordFXYN 0x9 x y 0x0
  | .ldI nnn => wordFNNN 0xA nnn
  | .jpV0 nnn => wordFNNN 0xB nnn
  | .rnd x nn => wordFXNN 0xC x nn
  | .drw x y n => wordFXYN 0xD x y n
  | .skp x => wordFXNN 0xE x 0x9E
  | .sknp x => wordFXNN 0xE x 0xA1
  | .ldFromDT x => wordFXNN 0xF x 0x07
  | .ldKey x => wordFXNN 0xF x 0x0A
  | .ldDT x => wordFXNN 0xF x 0x15
  | .ldST x => wordFXNN 0xF x 0x18
  | .addI x => wordFXNN 0xF x 0x1E
  | .ldFont x => wordFXNN 0xF x 0x29
  | .ldBcd x => wordFXNN 0xF x 0x33
  | .storeRegs x => wordFXNN 0xF x 0x55
  | .loadRegs x => wordFXNN 0xF x 0x65
  | .reserved0 nnn => wordFNNN 0x0 nnn
  | .reserved5 x y n => wordFXYN 0x5 x y n
  | .reserved8 x y n => wordFXYN 0x8 x y n
  | .reserved9 x y n => wordFXYN 0x9 x y n
  | .reservedE x nn => wordFXNN 0xE x nn
  | .reservedF x nn => wordFXNN 0xF x nn

/-- The two bytes of an instruction in memory order. -/
def encodeBytes (i : Instr) : List Byte := bytesOfWord (encode i)

end Sys2Proof
end

