-- ==== Sys2Proof/Config.lean ====
section
/-! DEFINITION. What is fixed for a run (00_scope R7, R8) and the free values (42_alu R139, 45_keypad_timer_ops R197). -/

namespace Sys2Proof

/-- The four compatibility options (00_scope R7; 90_conflicts C3). -/
structure Quirks where
  /-- OR, AND and XOR end with VF = 0 (42_alu R124). -/
  quirkVfReset : Bool
  /-- SHR and SHL shift VY into VX (42_alu R125). -/
  quirkShiftUsesVy : Bool
  /-- FX55 leaves I advanced by X + 1 (43_index_memory R158). -/
  quirkStoreAdvancesI : Bool
  /-- FX65 leaves I advanced by X + 1 (43_index_memory R159). -/
  quirkLoadAdvancesI : Bool
  deriving DecidableEq, Repr

/-- The parameters fixed for a run that a program cannot read or write (00_scope R7, R8; 10_state R21). -/
structure Config where
  /-- The compatibility options. -/
  quirks : Quirks
  /-- Executor cycles per frame (00_scope R8). -/
  cyclesPerFrame : Nat
  deriving DecidableEq, Repr

/-- All four options off, the spec's default (00_scope R7). -/
def Quirks.allOff : Quirks := ⟨false, false, false, false⟩

/-- The configuration of `State.reset`. DESIGN CHOICE (unsafe): 8 cycles per frame, the value 92_eei_decisions D11 gives a
simulator that must pick one; the parameter is open (log entry 3). -/
def Config.default : Config := ⟨Quirks.allOff, 8⟩

/-- Free value: the random byte of the k-th draw, under no law (42_alu R139; log entry 5). Safe. -/
opaque Config.randomByte : Nat → Byte

/-- Free value: which of several held keys the k-th draw takes (45_keypad_timer_ops R197; log entry 6). Safe. -/
opaque Config.keyChoice : Nat → Nat

end Sys2Proof
end

