-- ==== Sys2Proof/Machine/State.lean ====
section
/-! DEFINITION. The machine's state (10_state R20), the reasons it can stop, and the state right after reset (70 R240-R244).
The record's last seven fields are the step's parameters (00_scope R8) and the frame driver's own data (60_exceptions R224). -/

namespace Sys2Proof.Machine

/-- The bytes of memory that differ from their reset contents, by strictly rising address (`Memory.wf`; 20_memory R50). -/
abbrev Memory := List Host.Cell

/-- The 64 x 32 one-bit cells, as 32 rows of 64 (10_state R30). -/
abbrev Display := Vector (Vector Bool 64) 32

/-- The get-key sub-state (10_state R32). -/
inductive WaitState where
  | idle
  | awaitingRelease
  deriving DecidableEq, Repr

/-- The fault causes of 60_exceptions R211. Instructions RECORD them in `State.fault` (a next state, R212) and the machine
then halts; no step answers with the outcome `fault`. The policy is the spec's choice D5-D7 (log entry 7). -/
inductive Fault where
  /-- Recorded by CALL when 16 entries are live. Safe: the program may instead overwrite a slot and go on. -/
  | stackOverflow
  /-- Recorded by RET when no entry is live. Safe, as above. -/
  | stackUnderflow
  deriving DecidableEq, Repr

/-- Why something is rejected. -/
inductive Refusal where
  /-- An instruction without a meaning, by its mnemonic: no arm of `exec` raises it. Safe. -/
  | notModelled (mnemonic : String)
  /-- `launch` without a ROM: no initial state exists (70_reset_and_hazards R247). Safe. -/
  | romMissing
  /-- `launch` of a ROM longer than 3584 bytes: no initial state exists (70_reset_and_hazards R247). Safe. -/
  | romTooLarge
  deriving DecidableEq, Repr

/-- What the host does around one frame (60_exceptions R225, R226). -/
structure HostFrame where
  /-- The key vector given at the frame's start. -/
  keys : Vector Bool 16
  /-- Whether the renderer repaints after the frame's cycles, and so clears `dirty`. -/
  repaints : Bool
  deriving DecidableEq, Repr

/-- The machine. -/
structure State where
  /-- Memory, 4096 bytes (20_memory R50). -/
  mem : Memory
  /-- The general registers V0-VF (10_state R22). -/
  v : Vector Byte 16
  /-- The index register I (10_state R24). -/
  i : Word
  /-- The program counter (10_state R25). -/
  pc : Word
  /-- The number of live stack entries, 0 to 16 (10_state R27). -/
  sp : Fin 17
  /-- The return addresses (10_state R27). -/
  stack : Vector Word 16
  /-- The delay timer DT (10_state R28). -/
  dt : Byte
  /-- The sound timer ST (10_state R28). -/
  st : Byte
  /-- The keypad, true = held (10_state R29). -/
  key : Vector Bool 16
  /-- The display buffer (10_state R30). -/
  disp : Display
  /-- The display needs a redraw (10_state R31). -/
  dirty : Bool
  /-- The get-key sub-state (10_state R32). -/
  kw : WaitState
  /-- The get-key candidate (10_state R32). -/
  kwCand : Key
  /-- The fault register (10_state R33). -/
  fault : Option Fault
  /-- The configuration; no step changes it (00_scope R7; log entry 3). -/
  config : Config
  /-- The host's choices for the current frame and the frames to come; when none is left the host does nothing: the keypad
  stays as it is and `dirty` is not cleared (60_exceptions R225, R226; log entry 4). -/
  inputs : List HostFrame
  /-- The cycles of the current frame already run (60_exceptions R224; log entry 13). -/
  cycle : Nat
  /-- The render signal of the last finished frame (60_exceptions R224; log entry 13). -/
  renderOut : Bool
  /-- The audio signal of the last finished frame (60_exceptions R224; log entry 13). -/
  audioOut : Bool
  /-- The number of free draws taken: the model's own counter, which the free values are applied to (log entries 5, 6). -/
  draws : Nat
  deriving DecidableEq, Repr

/-- The machine right after reset with the default configuration and an empty ROM (70_reset_and_hazards R240-R244). Memory
lists nothing: every byte reads as its reset contents. The values of `key`, `disp`, `dirty`, `kw`, `kwCand` and `fault` are the
spec's choices D7, D18-D20 (log entries 7, 12); those of the last seven fields are the model's (log entries 3-6, 13). -/
def State.reset : State where
  mem := []
  v := Vector.replicate 16 0
  i := 0
  pc := 0x200
  sp := 0
  stack := Vector.replicate 16 0
  dt := 0
  st := 0
  key := Vector.replicate 16 false
  disp := Vector.replicate 32 (Vector.replicate 64 false)
  dirty := false
  kw := .idle
  kwCand := 0
  fault := none
  config := Config.default
  inputs := []
  cycle := 0
  renderOut := false
  audioOut := false
  draws := 0

end Sys2Proof.Machine
end

