-- ==== Sys2Proof/Machine/Ops.lean ====
section
/-! DEFINITION. The named operations over registers, memory, the program counter, the call stack, the display, the get-key
sub-state and the fault register (00_scope R13). Instructions are written with these. -/

namespace Sys2Proof.Machine

/-- The three outcomes over this machine's types. -/
abbrev Outcome := Host.Outcome State Fault Refusal

/-! ### Registers (10_state R22, R24, R28) -/

/-- `V[r]`. -/
def State.reg (s : State) (r : Reg) : Byte := s.v[r.val]

/-- `V[r] <- b`. -/
def State.setReg (s : State) (r : Reg) (b : Byte) : State := { s with v := s.v.set r.val b }

/-- `I <- w`. -/
def State.setI (s : State) (w : Word) : State := { s with i := w }

/-- `DT <- b`. -/
def State.setDt (s : State) (b : Byte) : State := { s with dt := b }

/-- `ST <- b`. -/
def State.setSt (s : State) (b : Byte) : State := { s with st := b }

/-! ### Memory (20_memory R51, R56) -/

/-- The array index of an address: `a mod 4096` (20_memory R51). DESIGN CHOICE of the spec, D1 (log entry 8). -/
def memIndex (a : Word) : Nat := a.toNat % 4096

/-- `MemRead(a, 1)`. -/
def State.readByte (s : State) (a : Word) : Byte := s.mem.read (memIndex a)

/-- `MemWrite(a, 1, b)`. -/
def State.writeByte (s : State) (a : Word) (b : Byte) : State := { s with mem := s.mem.write (memIndex a) b }

/-- `MemWrite(a + k, 1, bs[k])` for k ascending (20_memory R56). -/
def State.writeBytes (s : State) (a : Word) : List Byte → State
  | [] => s
  | b :: bs => State.writeBytes (s.writeByte a b) (a + 1) bs

/-- `V[r] <- MemRead(a + k, 1)` for the k-th register r of the list, k ascending (20_memory R56). -/
def State.readInto (s : State) (a : Word) : List Reg → State
  | [] => s
  | r :: rs => State.readInto (s.setReg r (s.readByte a)) (a + 1) rs

/-- The two bytes at `pc` and `pc + 1`, the high byte first (20_memory R57; 40_execution R91). -/
def State.fetchWord (s : State) : Word := wordOfBytes (s.readByte s.pc) (s.readByte (s.pc + 1))

/-! ### The program counter (10_state R25; 40_execution R92) -/

/-- `pc <- w`. -/
def State.setPc (s : State) (w : Word) : State := { s with pc := w }

/-- `pc <- (pc + 2) mod 2^16`: the cycle's advance (40_execution R92), and a skip (41_control_flow R103). -/
def State.advance (s : State) : State := s.setPc (s.pc + 2)

/-- `pc <- (pc - 2) mod 2^16`: back to the instruction's own address (45_keypad_timer_ops R196). -/
def State.retarget (s : State) : State := s.setPc (s.pc - 2)

/-- `if c: pc <- (pc + 2) mod 2^16` (41_control_flow R103-R106; 45_keypad_timer_ops R190, R191). -/
def State.skipIf (s : State) (c : Bool) : State := if c then s.advance else s

/-! ### Taking a fault (60_exceptions R212) -/

/-- Taking `Fault(c)`: the instruction has no effect, `pc` goes back to its own address and the cause is recorded. There is
no return from a fault (60_exceptions R214). -/
def State.raiseFault (s : State) (c : Fault) : State := { s.retarget with fault := some c }

/-! ### The call stack (10_state R27; 41_control_flow R100, R102) -/

/-- `stack[sp] <- pc; sp <- sp + 1; pc <- target`, or the fault when 16 entries are live. -/
def State.callTo (s : State) (target : Word) : State :=
  if h : s.sp.val < 16 then
    { s with stack := s.stack.set s.sp.val s.pc, sp := ⟨s.sp.val + 1, by omega⟩, pc := target }
  else s.raiseFault .stackOverflow

/-- `sp <- sp - 1; pc <- stack[sp]`, or the fault when no entry is live; the popped slot keeps its value. -/
def State.returnFromCall (s : State) : State :=
  match s.sp with
  | ⟨0, _⟩ => s.raiseFault .stackUnderflow
  | ⟨k + 1, h⟩ => { s with sp := ⟨k, by omega⟩, pc := s.stack[k] }

/-! ### The display (10_state R30, R31) -/

/-- The display with every cell 0. -/
def Display.blank : Display := Vector.replicate 32 (Vector.replicate 64 false)

/-- `disp[x][y]`. -/
def Display.cell (d : Display) (x : Fin 64) (y : Fin 32) : Bool := d[y.val][x.val]

/-- `disp[x][y] <- disp[x][y] ^ 1`. -/
def Display.flip (d : Display) (x : Fin 64) (y : Fin 32) : Display :=
  d.set y.val (d[y.val].set x.val (!d[y.val][x.val]))

/-- The buffer becomes `d` and is marked dirty, whether or not a cell changed (44_display R178). -/
def State.setDisplay (s : State) (d : Display) : State := { s with disp := d, dirty := true }

/-! ### The keypad and the get-key sub-state (10_state R29, R32; 45_keypad_timer_ops R196, R197) -/

/-- `key[k]`. -/
def State.held (s : State) (k : Key) : Bool := s.key[k.val]

/-- The held keys, ascending: the set P of 45_keypad_timer_ops R196. -/
def State.heldKeys (s : State) : List Key := allIndices.filter s.held

/-- `kwCand <- k; kw <- AwaitingRelease`. -/
def State.awaitRelease (s : State) (k : Key) : State := { s with kw := .awaitingRelease, kwCand := k }

/-- `kw <- Idle`. -/
def State.stopWaiting (s : State) : State := { s with kw := .idle }

/-- One free draw has been taken. -/
def State.countDraw (s : State) : State := { s with draws := s.draws + 1 }

/-- `choose` on the list `k :: ks`: the free value picks one of its elements (45_keypad_timer_ops R197). -/
def pickKey (n : Nat) (k : Key) (ks : List Key) : Key := (k :: ks).getD (n % (ks.length + 1)) k

/-- The scan of the Idle sub-state: with no key held nothing happens, otherwise a held key becomes the candidate, by a free
choice when several are held (45_keypad_timer_ops R196, R197). -/
def State.scanKeys (s : State) : State :=
  match s.heldKeys with
  | [] => s
  | [k] => s.awaitRelease k
  | k :: ks => (s.awaitRelease (pickKey (Config.keyChoice s.draws) k ks)).countDraw

end Sys2Proof.Machine
end

