-- ==== Sys2Proof/Machine/Operands.lean ====
section
/-! DEFINITION. The operand forms: zero-extended immediates (30_encoding R72), the low nibble of a register (43 R152, 45
R190), V0 to VX (43 R157), the shifted operand (42 R125) and the draw's origin (44 R172). -/

namespace Sys2Proof.Machine

/-- `zext_16(NNN)` (30_encoding R72). -/
def zextAddr (nnn : Addr) : Word := nnn.setWidth 16

/-- `zext_16(V[X])`. -/
def zextByte (b : Byte) : Word := b.setWidth 16

/-- `b & 0x0F`. -/
def lowNibble (b : Byte) : Byte := b &&& 0x0F

/-- The key or candidate number `b & 0x0F` (45_keypad_timer_ops R190). -/
def keyIndex (b : Byte) : Key := Fin.ofNat 16 (lowNibble b).toNat

/-- `zext_8` of a key number (45_keypad_timer_ops R196). -/
def keyByte (k : Key) : Byte := BitVec.ofNat 8 k.val

/-- V0 to VX inclusive, ascending (43_index_memory R157, R160). -/
def regsThrough (x : Reg) : List Reg := allIndices.take (x.val + 1)

/-- The shifted operand of SHR and SHL: VY under `quirkShiftUsesVy`, else VX (42_alu R125). -/
def State.shiftOperand (s : State) (x y : Reg) : Byte :=
  if s.config.quirks.quirkShiftUsesVy then s.reg y else s.reg x

/-- `V[X] mod 64`, the column of a draw's origin (44_display R172). -/
def originColumn (b : Byte) : Nat := b.toNat % 64

/-- `V[Y] mod 32`, the row of a draw's origin (44_display R172). -/
def originRow (b : Byte) : Nat := b.toNat % 32

/-- The start address of the glyph of a digit: `5 * (b & 0x0F)` (43_index_memory R152). -/
def glyphAddress (b : Byte) : Word := 5 * zextByte (lowNibble b)

/-- The hundreds, tens and ones digits of a byte (43_index_memory R154). -/
def bcdDigits (b : Byte) : List Byte :=
  [BitVec.ofNat 8 (b.toNat / 100), BitVec.ofNat 8 (b.toNat / 10 % 10), BitVec.ofNat 8 (b.toNat % 10)]

end Sys2Proof.Machine
end

