-- ==== Sys2Proof/Machine/Flags.lean ====
section
/-! DEFINITION. The values VF takes as a flag (10_state R23; 42_alu R124, R130-R134; 44_display R174) and the order of the
writes: VX first, VF last (00_scope R14; 42_alu R123). -/

namespace Sys2Proof.Machine

/-- `bool(c)` as a byte. -/
def flagByte (c : Bool) : Byte := if c then 1 else 0

/-- Carry: `bool(a + b > 255)` (42_alu R130). -/
def carry (a b : Byte) : Byte := flagByte (decide (a.toNat + b.toNat > 255))

/-- Not borrow: `bool(a >= b)`, `a` the minuend (42_alu R131, R133). -/
def notBorrow (a b : Byte) : Byte := flagByte (decide (a.toNat ≥ b.toNat))

/-- The bit a right shift puts out: `s & 1` (42_alu R132). -/
def bitOutRight (s : Byte) : Byte := s &&& 1

/-- The bit a left shift puts out: `s >> 7` (42_alu R134). -/
def bitOutLeft (s : Byte) : Byte := s >>> 7

/-- `V[F] <- f`. -/
def State.setFlag (s : State) (f : Byte) : State := s.setReg vF f

/-- `V[X] <- r`, then `V[F] <- f`: the flag is what VF holds when X = F (42_alu R123). -/
def State.setRegThenFlag (s : State) (x : Reg) (r f : Byte) : State := (s.setReg x r).setFlag f

/-- `V[X] <- r`, then `if quirkVfReset: V[F] <- 0` (42_alu R124). -/
def State.setLogicResult (s : State) (x : Reg) (r : Byte) : State :=
  if s.config.quirks.quirkVfReset then s.setRegThenFlag x r 0 else s.setReg x r

end Sys2Proof.Machine
end

