-- ==== Sys2Proof/Machine/Alu.lean ====
section
/-! DEFINITION. Register loads, the ALU and the random byte (42_alu R121-R134, R139). Every operand is read before any
write, and VF is written last (R123). -/

namespace Sys2Proof.Machine

/-- 6XNN (42_alu R121). -/
def execLdImm (x : Reg) (nn : Byte) (s : State) : Outcome := .next (s.setReg x nn)

/-- 7XNN: wraps mod 256, no flag (42_alu R122). -/
def execAddImm (x : Reg) (nn : Byte) (s : State) : Outcome := .next (s.setReg x (s.reg x + nn))

/-- 8XY0 (42_alu R126). -/
def execLdReg (x y : Reg) (s : State) : Outcome := .next (s.setReg x (s.reg y))

/-- 8XY1 (42_alu R127). -/
def execOrReg (x y : Reg) (s : State) : Outcome := .next (s.setLogicResult x (s.reg x ||| s.reg y))

/-- 8XY2 (42_alu R128). -/
def execAndReg (x y : Reg) (s : State) : Outcome := .next (s.setLogicResult x (s.reg x &&& s.reg y))

/-- 8XY3 (42_alu R129). -/
def execXorReg (x y : Reg) (s : State) : Outcome := .next (s.setLogicResult x (s.reg x ^^^ s.reg y))

/-- 8XY4 (42_alu R130). -/
def execAddReg (x y : Reg) (s : State) : Outcome :=
  .next (s.setRegThenFlag x (s.reg x + s.reg y) (carry (s.reg x) (s.reg y)))

/-- 8XY5 (42_alu R131). -/
def execSubReg (x y : Reg) (s : State) : Outcome :=
  .next (s.setRegThenFlag x (s.reg x - s.reg y) (notBorrow (s.reg x) (s.reg y)))

/-- 8XY6 (42_alu R132). -/
def execShr (x y : Reg) (s : State) : Outcome :=
  .next (s.setRegThenFlag x (s.shiftOperand x y >>> 1) (bitOutRight (s.shiftOperand x y)))

/-- 8XY7: VY is the minuend (42_alu R133). PRESUMED by the spec from general knowledge (log entry 11). -/
def execSubn (x y : Reg) (s : State) : Outcome :=
  .next (s.setRegThenFlag x (s.reg y - s.reg x) (notBorrow (s.reg y) (s.reg x)))

/-- 8XYE (42_alu R134). -/
def execShl (x y : Reg) (s : State) : Outcome :=
  .next (s.setRegThenFlag x (s.shiftOperand x y <<< 1) (bitOutLeft (s.shiftOperand x y)))

/-- CXNN: a fresh free byte, masked (42_alu R139; log entry 5). -/
def execRnd (x : Reg) (nn : Byte) (s : State) : Outcome :=
  .next (s.setReg x (Config.randomByte s.draws &&& nn)).countDraw

end Sys2Proof.Machine
end

