-- ==== Sys2Proof/Machine/ControlFlow.lean ====
section
/-! DEFINITION. Return, jump, call, the skips and the jump with offset (41_control_flow R100-R107). The state given to a
meaning is the one after the cycle's advance: `pc` is the instruction's address + 2 (40_execution R92; log entry 1). -/

namespace Sys2Proof.Machine

/-- 00EE (41_control_flow R100). -/
def execRet (s : State) : Outcome := .next s.returnFromCall

/-- 1NNN (41_control_flow R101). -/
def execJp (nnn : Addr) (s : State) : Outcome := .next (s.setPc (zextAddr nnn))

/-- 2NNN (41_control_flow R102). -/
def execCall (nnn : Addr) (s : State) : Outcome := .next (s.callTo (zextAddr nnn))

/-- 3XNN (41_control_flow R103). -/
def execSeImm (x : Reg) (nn : Byte) (s : State) : Outcome := .next (s.skipIf (s.reg x == nn))

/-- 4XNN (41_control_flow R104). -/
def execSneImm (x : Reg) (nn : Byte) (s : State) : Outcome := .next (s.skipIf (s.reg x != nn))

/-- 5XY0 (41_control_flow R105). -/
def execSeReg (x y : Reg) (s : State) : Outcome := .next (s.skipIf (s.reg x == s.reg y))

/-- 9XY0 (41_control_flow R106). -/
def execSneReg (x y : Reg) (s : State) : Outcome := .next (s.skipIf (s.reg x != s.reg y))

/-- BNNN: `pc <- (zext_16(NNN) + zext_16(V[0])) mod 2^16` (41_control_flow R107). -/
def execJpV0 (nnn : Addr) (s : State) : Outcome := .next (s.setPc (zextAddr nnn + zextByte (s.reg 0)))

end Sys2Proof.Machine
end

