-- ==== Sys2Proof/Machine/Drawing.lean ====
section
/-! DEFINITION. Clear and XOR draw with collision (44_display R170-R178). -/

namespace Sys2Proof.Machine

/-- The buffer during a draw, and whether a set cell has been cleared so far (44_display R174). -/
structure Canvas where
  disp : Display
  collided : Bool
  deriving DecidableEq, Repr

/-- A 1 bit meets the cell (x, y): the cell is inverted, and 1 -> 0 is a collision (44_display R173, R174). -/
def Canvas.plot (c : Canvas) (x : Fin 64) (y : Fin 32) : Canvas :=
  ⟨c.disp.flip x y, c.collided || c.disp.cell x y⟩

/-- The bit positions of a row byte, most significant first (44_display R173). -/
def bitPositions : List Nat := [0, 1, 2, 3, 4, 5, 6, 7]

/-- The bits `js` of one row, in order; the row stops at the right edge (44_display R171, R175). -/
def Canvas.drawBits (c : Canvas) (row : Byte) (x0 : Nat) (y : Fin 32) : List Nat → Canvas
  | [] => c
  | j :: js =>
    if h : x0 + j < 64 then
      Canvas.drawBits (if row.getLsbD (7 - j) then c.plot ⟨x0 + j, h⟩ y else c) row x0 y js
    else c

/-- The rows `ks` of a sprite at address `a`, in order; the draw stops at the bottom edge (44_display R171, R175). Row k is
the byte `MemRead(a + k, 1)` (R173). -/
def Canvas.drawRows (c : Canvas) (s : State) (a : Word) (x0 y0 : Nat) : List Nat → Canvas
  | [] => c
  | k :: ks =>
    if h : y0 + k < 32 then
      Canvas.drawRows (c.drawBits (s.readByte (a + BitVec.ofNat 16 k)) x0 ⟨y0 + k, h⟩ bitPositions) s a x0 y0 ks
    else c

/-- The whole draw of an n-row sprite at I with its origin at (VX, VY), read before VF is written (44_display R171, R172). -/
def State.drawSprite (s : State) (x y : Reg) (n : Nibble) : Canvas :=
  Canvas.drawRows ⟨s.disp, false⟩ s s.i (originColumn (s.reg x)) (originRow (s.reg y)) (List.range n.toNat)

/-- The state with a finished canvas: the buffer, the dirty flag and VF = collision (44_display R174, R178). -/
def State.showCanvas (s : State) (c : Canvas) : State := (s.setDisplay c.disp).setFlag (flagByte c.collided)

/-- 00E0 (44_display R170). -/
def execCls (s : State) : Outcome := .next (s.setDisplay Display.blank)

/-- DXYN (44_display R171). -/
def execDrw (x y : Reg) (n : Nibble) (s : State) : Outcome := .next (s.showCanvas (s.drawSprite x y n))

end Sys2Proof.Machine
end

