-- ==== Sys2Proof/Machine/IndexMemory.lean ====
section
/-! DEFINITION. The index register, the font address, BCD, and the register store and load (43_index_memory R150-R160). -/

namespace Sys2Proof.Machine

/-- `I <- (I + X + 1) mod 2^16` if the option is on (43_index_memory R158, R159). The amount is PRESUMED by the spec (log
entry 11). -/
def State.advanceIndexIf (s : State) (q : Bool) (x : Reg) : State :=
  if q then s.setI (s.i + BitVec.ofNat 16 (x.val + 1)) else s

/-- ANNN (43_index_memory R150). -/
def execLdI (nnn : Addr) (s : State) : Outcome := .next (s.setI (zextAddr nnn))

/-- FX1E: wraps mod 2^16, no flag (43_index_memory R151). -/
def execAddI (x : Reg) (s : State) : Outcome := .next (s.setI (s.i + zextByte (s.reg x)))

/-- FX29 (43_index_memory R152). -/
def execLdFont (x : Reg) (s : State) : Outcome := .next (s.setI (glyphAddress (s.reg x)))

/-- FX33 (43_index_memory R156). -/
def execLdBcd (x : Reg) (s : State) : Outcome := .next (s.writeBytes s.i (bcdDigits (s.reg x)))

/-- FX55 (43_index_memory R157, R158). -/
def execStoreRegs (x : Reg) (s : State) : Outcome :=
  .next ((s.writeBytes s.i ((regsThrough x).map s.reg)).advanceIndexIf s.config.quirks.quirkStoreAdvancesI x)

/-- FX65 (43_index_memory R159, R160). -/
def execLoadRegs (x : Reg) (s : State) : Outcome :=
  .next ((s.readInto s.i (regsThrough x)).advanceIndexIf s.config.quirks.quirkLoadAdvancesI x)

end Sys2Proof.Machine
end

