-- ==== Sys2Proof/Machine/KeypadTimer.lean ====
section
/-! DEFINITION. Key skips, timer access and the blocking get-key (45_keypad_timer_ops R190-R197). -/

namespace Sys2Proof.Machine

/-- EX9E (45_keypad_timer_ops R190). -/
def execSkp (x : Reg) (s : State) : Outcome := .next (s.skipIf (s.held (keyIndex (s.reg x))))

/-- EXA1 (45_keypad_timer_ops R191). -/
def execSknp (x : Reg) (s : State) : Outcome := .next (s.skipIf (!s.held (keyIndex (s.reg x))))

/-- FX07 (45_keypad_timer_ops R192). -/
def execLdFromDT (x : Reg) (s : State) : Outcome := .next (s.setReg x s.dt)

/-- FX15 (45_keypad_timer_ops R193). -/
def execLdDT (x : Reg) (s : State) : Outcome := .next (s.setDt (s.reg x))

/-- FX18 (45_keypad_timer_ops R194). -/
def execLdST (x : Reg) (s : State) : Outcome := .next (s.setSt (s.reg x))

/-- One execution of the get-key state machine (45_keypad_timer_ops R196): Idle scans and re-executes whether or not a key
was found (90_conflicts C10); AwaitingRelease re-executes while the candidate is held, then delivers it. -/
def State.awaitKey (s : State) (x : Reg) : State :=
  match s.kw with
  | .idle => s.scanKeys.retarget
  | .awaitingRelease => if s.held s.kwCand then s.retarget else (s.setReg x (keyByte s.kwCand)).stopWaiting

/-- FX0A (45_keypad_timer_ops R195, R196). -/
def execLdKey (x : Reg) (s : State) : Outcome := .next (s.awaitKey x)

end Sys2Proof.Machine
end

