-- ==== Sys2Proof/Machine/Reserved.lean ====
section
/-! DEFINITION. The reserved words: no-ops, whose only effect is the cycle's advance (30_encoding R76, R77, R79; 42_alu R135). -/

namespace Sys2Proof.Machine

/-- `execute_reserved`: no register, memory, display, timer or key-state change (30_encoding R76). -/
def State.reservedNoOp (s : State) : State := s

/-- 0NNN other than 00E0 and 00EE (30_encoding R76, R77). -/
def execReserved0 (_nnn : Addr) (s : State) : Outcome := .next s.reservedNoOp

/-- 5XYN with N not 0 (30_encoding R76). -/
def execReserved5 (_x _y : Reg) (_n : Nibble) (s : State) : Outcome := .next s.reservedNoOp

/-- 8XYN with N in 8-D or F (30_encoding R76; 42_alu R135). -/
def execReserved8 (_x _y : Reg) (_n : Nibble) (s : State) : Outcome := .next s.reservedNoOp

/-- 9XYN with N not 0 (30_encoding R76). -/
def execReserved9 (_x _y : Reg) (_n : Nibble) (s : State) : Outcome := .next s.reservedNoOp

/-- EXNN with NN not 9E or A1 (30_encoding R76). -/
def execReservedE (_x : Reg) (_nn : Byte) (s : State) : Outcome := .next s.reservedNoOp

/-- FXNN with NN none of the nine sub-operations (30_encoding R76). -/
def execReservedF (_x : Reg) (_nn : Byte) (s : State) : Outcome := .next s.reservedNoOp

end Sys2Proof.Machine
end

