-- ==== Sys2Proof/Machine/Frame.lean ====
section
/-! DEFINITION. The frame driver around a cycle (60_exceptions R222, R224-R226; 40_execution R90-R92). `step` runs one cycle;
the first of a frame is preceded by the frame's start and the last followed by its end (log entry 2). -/

namespace Sys2Proof.Machine

/-- The keypad after the host's `set_pressed(key, pressed)` calls, in order: how a frame's key vector comes about
(60_exceptions R225). The vector itself is what `HostFrame.keys` holds. -/
def keysAfterCalls (calls : List (Key × Bool)) (keys : Vector Bool 16) : Vector Bool 16 :=
  calls.foldl (fun ks c => ks.set c.1.val c.2) keys

/-- The start of a frame: `key <- keysIn` (60_exceptions R224, R225). With no input left the keypad stays (log entry 4). -/
def State.startFrame (s : State) : State :=
  match s.inputs with
  | [] => s
  | f :: _ => { s with key := f.keys }

/-- `if t > 0: t <- t - 1` (60_exceptions R222). -/
def countDown (t : Byte) : Byte := if t = 0 then 0 else t - 1

/-- Both timers, once (60_exceptions R222). -/
def State.tickTimers (s : State) : State := { s with dt := countDown s.dt, st := countDown s.st }

/-- The render signal, and the host's repaint, which clears `dirty` (60_exceptions R224, R226). -/
def State.signalRender (s : State) : State :=
  match s.inputs with
  | [] => { s with renderOut := s.dirty }
  | f :: fs => { s with renderOut := s.dirty, dirty := s.dirty && !f.repaints, inputs := fs }

/-- The audio signal `ST != 0` (60_exceptions R224, R226). -/
def State.signalAudio (s : State) : State := { s with audioOut := s.st != 0 }

/-- The end of a frame: render signal, timers unless a fault is recorded, audio signal (60_exceptions R222, R224). -/
def State.endFrame (s : State) : State :=
  let r := s.signalRender
  let t := if r.fault.isNone then r.tickTimers else r
  { t.signalAudio with cycle := 0 }

/-- After a cycle: count it, and end the frame with its last cycle (60_exceptions R224). -/
def State.leaveCycle (s : State) : State :=
  if s.cycle + 1 < s.config.cyclesPerFrame then { s with cycle := s.cycle + 1 } else s.endFrame

/-- What the frame driver lets a step do. -/
inductive Entry where
  /-- A frame that starts with a fault recorded returns at once (60_exceptions R224). -/
  | halted
  /-- A cycle that does nothing: a fault is recorded (40_execution R90), or the frame has no cycles. -/
  | emptyCycle (s : State)
  /-- A cycle that executes `i` on the state after the advance (40_execution R90-R93). -/
  | execute (i : Instr) (s : State)

/-- The state in which the next cycle runs: the frame's start comes first when no cycle of it has run (60_exceptions R224). -/
def State.enterFrame (s : State) : State := if s.cycle = 0 then s.startFrame else s

/-- The cycle's beginning: the fault test, the fetch, the advance and the decoding (40_execution R90-R93). -/
def State.enterCycle (s : State) : Entry :=
  if s.fault.isSome && s.cycle == 0 then .halted
  else if s.fault.isSome || s.config.cyclesPerFrame == 0 then .emptyCycle s.enterFrame
  else .execute (decode s.enterFrame.fetchWord) s.enterFrame.advance

/-- Applies `f` to the state of a next outcome. -/
def onNext (f : State → State) : Outcome → Outcome
  | .next s => .next (f s)
  | .fault r => .fault r
  | .refused r => .refused r

/-- Stores the bytes of a word, high byte first, where the next fetch reads (20_memory R57). -/
def State.placeWord (s : State) (op : Word) : State := s.writeBytes s.pc (bytesOfWord op)

end Sys2Proof.Machine
end

