-- ==== Sys2Proof/Machine/Launch.lean ====
section
/-! DEFINITION. Reset with a given configuration, font and ROM (70_reset_and_hazards R240-R247). `State.reset` is the launch
with the defaults and an empty ROM. -/

namespace Sys2Proof.Machine

/-- The largest ROM: 4096 - 512 bytes (70_reset_and_hazards R247). -/
def maxRomLength : Nat := 4096 - 512

/-- Memory after the three steps of 70_reset_and_hazards R241-R243. -/
def resetMemory (font : Vector Byte 80) (rom : List Byte) : Memory :=
  (Memory.load [] 0x000 font.toList).load 0x200 rom

/-- The state after reset, or the refusal of 70_reset_and_hazards R247. `none` is a missing or unreadable ROM; an empty one is
accepted (the spec's choice D30; log entry 19). -/
def launch (config : Config) (font : Vector Byte 80) (inputs : List HostFrame) : Option (List Byte) → Outcome
  | none => .refused .romMissing
  | some rom =>
    if rom.length ≤ maxRomLength then
      .next { State.reset with mem := resetMemory font rom, config := config, inputs := inputs }
    else .refused .romTooLarge

end Sys2Proof.Machine
end

