-- ==== Sys2Proof/Machine/Step.lean ====
section
/-! DEFINITION. One step: one cycle of the executor (40_execution R90) with the frame driver around it (60_exceptions R224). -/

namespace Sys2Proof.Machine

/-- One step. The state at a frame's boundary with a fault recorded does not change any more (60_exceptions R212). -/
def step (s : State) : Host.Outcome State Fault Refusal :=
  match s.enterCycle with
  | .halted => .next s
  | .emptyCycle t => .next t.leaveCycle
  | .execute i t => onNext State.leaveCycle (exec i t)

/-- `s` with the instruction of the table's word stored at `pc`, where the next fetch reads; bits from `nbits` up are 0. A
machine with a fault recorded fetches nothing. How a program comes to run from reset is log entry 14. -/
def State.withFetchWord (s : State) (nbits w : Nat) : State := s.placeWord (BitVec.ofNat 16 (w % 2 ^ nbits))

end Sys2Proof.Machine
end

