-- ==== Sys2Proof/Safety.lean ====
section
/-! DEFINITION. The terms claims are stated in: the good states (60_exceptions R212, R227), the cycle and the frame as the spec
writes them (40_execution R90; 60_exceptions R224), the rows of the decode table (30_encoding R75), what an instruction may
change, and the sprite as a set of cells (44_display R171-R175). -/

namespace Sys2Proof.Safety

open Sys2Proof.Machine

/-- No fault is recorded: what every claim about a run asks of its end (60_exceptions R227). -/
def Good (s : State) : Prop := s.fault = none

/-! ### The cycle and the frame in the spec's own form -/

/-- `cycle()` of 40_execution R90. -/
def cycle (s : State) : State :=
  if s.fault.isSome then s
  else
    match exec (decode s.fetchWord) s.advance with
    | .next t => t
    | .fault _ => s
    | .refused _ => s

/-- `repeat n times: cycle()`. -/
def cycles : Nat → State → State
  | 0, s => s
  | n + 1, s => cycles n (cycle s)

/-- `frame(keysIn)` of 60_exceptions R224, for the host's input at the head of `inputs`. -/
def frame (s : State) : State :=
  if s.fault.isSome then s else (cycles s.config.cyclesPerFrame s.startFrame).endFrame

/-- A run of n frames (60_exceptions R227). -/
def frames : Nat → State → State
  | 0, s => s
  | n + 1, s => frames n (frame s)

/-- No cycle of the frame that starts in `s` executes FX15 (60_exceptions R223). -/
def NoDelayWrite (s : State) : Prop :=
  ∀ c x, c < s.config.cyclesPerFrame → decode (cycles c s.startFrame).fetchWord ≠ .ldDT x

/-! ### The decode table (30_encoding R75) -/

/-- The 34 rows `(mask, match)` of 30_encoding R75, in its order. -/
def definedRows : List (Word × Word) :=
  [(0xFFFF, 0x00E0), (0xFFFF, 0x00EE), (0xF000, 0x1000), (0xF000, 0x2000), (0xF000, 0x3000), (0xF000, 0x4000)] ++
  [(0xF00F, 0x5000), (0xF000, 0x6000), (0xF000, 0x7000), (0xF00F, 0x8000), (0xF00F, 0x8001), (0xF00F, 0x8002)] ++
  [(0xF00F, 0x8003), (0xF00F, 0x8004), (0xF00F, 0x8005), (0xF00F, 0x8006), (0xF00F, 0x8007), (0xF00F, 0x800E)] ++
  [(0xF00F, 0x9000), (0xF000, 0xA000), (0xF000, 0xB000), (0xF000, 0xC000), (0xF000, 0xD000), (0xF0FF, 0xE09E)] ++
  [(0xF0FF, 0xE0A1), (0xF0FF, 0xF007), (0xF0FF, 0xF00A), (0xF0FF, 0xF015), (0xF0FF, 0xF018), (0xF0FF, 0xF01E)] ++
  [(0xF0FF, 0xF029), (0xF0FF, 0xF033), (0xF0FF, 0xF055), (0xF0FF, 0xF065)]

/-- The row of an instruction, as the table pairs them; a reserved one has none (30_encoding R75, R76). -/
def rowOf : Instr → Option (Word × Word)
  | .cls => some (0xFFFF, 0x00E0)
  | .ret => some (0xFFFF, 0x00EE)
  | .jp _ => some (0xF000, 0x1000)
  | .call _ => some (0xF000, 0x2000)
  | .seImm _ _ => some (0xF000, 0x3000)
  | .sneImm _ _ => some (0xF000, 0x4000)
  | .seReg _ _ => some (0xF00F, 0x5000)
  | .ldImm _ _ => some (0xF000, 0x6000)
  | .addImm _ _ => some (0xF000, 0x7000)
  | .ldReg _ _ => some (0xF00F, 0x8000)
  | .orReg _ _ => some (0xF00F, 0x8001)
  | .andReg _ _ => some (0xF00F, 0x8002)
  | .xorReg _ _ => some (0xF00F, 0x8003)
  | .addReg _ _ => some (0xF00F, 0x8004)
  | .subReg _ _ => some (0xF00F, 0x8005)
  | .shr _ _ => some (0xF00F, 0x8006)
  | .subn _ _ => some (0xF00F, 0x8007)
  | .shl _ _ => some (0xF00F, 0x800E)
  | .sneReg _ _ => some (0xF00F, 0x9000)
  | .ldI _ => some (0xF000, 0xA000)
  | .jpV0 _ => some (0xF000, 0xB000)
  | .rnd _ _ => some (0xF000, 0xC000)
  | .drw _ _ _ => some (0xF000, 0xD000)
  | .skp _ => some (0xF0FF, 0xE09E)
  | .sknp _ => some (0xF0FF, 0xE0A1)
  | .ldFromDT _ => some (0xF0FF, 0xF007)
  | .ldKey _ => some (0xF0FF, 0xF00A)
  | .ldDT _ => some (0xF0FF, 0xF015)
  | .ldST _ => some (0xF0FF, 0xF018)
  | .addI _ => some (0xF0FF, 0xF01E)
  | .ldFont _ => some (0xF0FF, 0xF029)
  | .ldBcd _ => some (0xF0FF, 0xF033)
  | .storeRegs _ => some (0xF0FF, 0xF055)
  | .loadRegs _ => some (0xF0FF, 0xF065)
  | .reserved0 _ | .reserved5 _ _ _ | .reserved8 _ _ _ | .reserved9 _ _ _ | .reservedE _ _ | .reservedF _ _ => none

/-- Every word of the row is the instruction that `build` makes of its fields. -/
def Decodes (mask bits : Word) (build : Word → Instr) : Prop := ∀ op : Word, op &&& mask = bits → decode op = build op

/-! ### What an instruction leaves alone -/

/-- One piece of the state (10_state R20), as small as an instruction can change it. -/
inductive Part where
  | reg (r : Reg)
  | index
  | counter
  /-- One byte of memory, by its array index. -/
  | byte (a : Nat)
  | depth
  | slot (k : Fin 16)
  | delay
  | sound
  | heldKey (k : Key)
  | cell (x : Fin 64) (y : Fin 32)
  | dirty
  /-- The get-key sub-state and its candidate. -/
  | wait
  | fault
  | config
  | inputs
  /-- How far the current frame has come. -/
  | position
  /-- The render and audio signals. -/
  | signals
  | draws

/-- `t` holds in this piece what `s` holds. -/
def Part.Same : Part → State → State → Prop
  | .reg r, s, t => t.reg r = s.reg r
  | .index, s, t => t.i = s.i
  | .counter, s, t => t.pc = s.pc
  | .byte a, s, t => t.mem.read a = s.mem.read a
  | .depth, s, t => t.sp = s.sp
  | .slot k, s, t => t.stack[k.val] = s.stack[k.val]
  | .delay, s, t => t.dt = s.dt
  | .sound, s, t => t.st = s.st
  | .heldKey k, s, t => t.held k = s.held k
  | .cell x y, s, t => t.disp.cell x y = s.disp.cell x y
  | .dirty, s, t => t.dirty = s.dirty
  | .wait, s, t => t.kw = s.kw ∧ t.kwCand = s.kwCand
  | .fault, s, t => t.fault = s.fault
  | .config, s, t => t.config = s.config
  | .inputs, s, t => t.inputs = s.inputs
  | .position, s, t => t.cycle = s.cycle
  | .signals, s, t => t.renderOut = s.renderOut ∧ t.audioOut = s.audioOut
  | .draws, s, t => t.draws = s.draws

/-- Every piece outside `changed` is as it was. -/
def Unchanged (changed : Part → Prop) (s t : State) : Prop := ∀ p, ¬ changed p → p.Same s t

/-- Every piece but the listed ones is as it was. -/
def OnlyChanges (ps : List Part) (s t : State) : Prop := Unchanged (· ∈ ps) s t

/-- The pieces of the display. -/
def IsCell (p : Part) : Prop := ∃ x y, p = .cell x y

/-- The bytes at I, I + 1, ... , I + n - 1, each address reduced as the accesses reduce it (20_memory R51, R56). -/
def bytesFromI (s : State) (n : Nat) : List Part :=
  (List.range n).map (fun k => .byte (memIndex (s.i + BitVec.ofNat 16 k)))

/-- What each instruction may change (files 41-45; 20_memory R56; 10_state R23-R32). -/
def Writes (i : Instr) (s : State) (p : Part) : Prop :=
  match i with
  | .cls => p = .dirty ∨ IsCell p
  | .ret => if s.sp.val = 0 then p ∈ [Part.fault, .counter] else p ∈ [Part.depth, .counter]
  | .call _ =>
    if h : s.sp.val < 16 then p ∈ [Part.slot ⟨s.sp.val, h⟩, .depth, .counter] else p ∈ [Part.fault, .counter]
  | .jp _ | .jpV0 _ | .seImm _ _ | .sneImm _ _ | .seReg _ _ | .sneReg _ _ | .skp _ | .sknp _ => p = .counter
  | .ldImm x _ | .addImm x _ | .ldReg x _ | .ldFromDT x => p = .reg x
  | .orReg x _ | .andReg x _ | .xorReg x _ => p = .reg x ∨ s.config.quirks.quirkVfReset = true ∧ p = .reg vF
  | .addReg x _ | .subReg x _ | .shr x _ | .subn x _ | .shl x _ => p ∈ [Part.reg x, .reg vF]
  | .ldI _ | .addI _ | .ldFont _ => p = .index
  | .rnd x _ => p ∈ [Part.reg x, .draws]
  | .drw _ _ _ => p ∈ [Part.reg vF, .dirty] ∨ IsCell p
  | .ldKey x => if s.kw = .idle then p ∈ [Part.counter, .wait, .draws] else p ∈ [Part.counter, .wait, .reg x]
  | .ldDT _ => p = .delay
  | .ldST _ => p = .sound
  | .ldBcd _ => p ∈ bytesFromI s 3
  | .storeRegs x => p ∈ bytesFromI s (x.val + 1) ∨ s.config.quirks.quirkStoreAdvancesI = true ∧ p = .index
  | .loadRegs x => (∃ r : Reg, r ≤ x ∧ p = .reg r) ∨ s.config.quirks.quirkLoadAdvancesI = true ∧ p = .index
  | .reserved0 _ | .reserved5 _ _ _ | .reserved8 _ _ _ | .reserved9 _ _ _ | .reservedE _ _ | .reservedF _ _ => False

/-! ### The sprite of a draw (44_display R171-R175) -/

/-- Whether a 1 bit of the sprite that `DRW VX, VY, N` would draw in `s` lies on the cell: bits that would fall outside the
buffer lie on no cell (44_display R172, R173, R175). -/
def spriteBit (s : State) (x y : Reg) (n : Nibble) (cx : Fin 64) (cy : Fin 32) : Bool :=
  let x0 := originColumn (s.reg x)
  let y0 := originRow (s.reg y)
  decide (x0 ≤ cx.val ∧ cx.val < x0 + 8 ∧ y0 ≤ cy.val ∧ cy.val < y0 + n.toNat) &&
    (s.readByte (s.i + BitVec.ofNat 16 (cy.val - y0))).getLsbD (7 - (cx.val - x0))

/-! ### Invariants -/

/-- While a get-key waits for a release, the instruction at `pc` is that get-key (10_state R32). -/
def WaitsAtGetKey (s : State) : Prop := s.kw = .awaitingRelease → ∃ x, decode s.fetchWord = .ldKey x

/-- The frame driver stands inside a frame or at its boundary (60_exceptions R224). -/
def InFrame (s : State) : Prop := s.cycle = 0 ∨ s.cycle < s.config.cyclesPerFrame

end Sys2Proof.Safety
end

