-- ==== Sys2Proof/Certificates/Slice0/Obligations.lean ====
section
/-! DEFINITION. The statements for the provers. `exec` is given the state after the cycle's advance, so `s.pc` is the
instruction's address + 2 (40_execution R92; log entry 1). -/

open Sys2Proof Sys2Proof.Machine Sys2Proof.Safety

/-! ### Encoding and fetch -/

/-- Decoding an encoded well-formed instruction gives it back, with every operand (30_encoding R75, R76). -/
def Obligations.DecodeOfEncodeIsTheInstruction : Prop :=
  ∀ i : Instr, i.WellFormed = true → decode (encode i) = i

/-- Every one of the 65,536 words is the encoding of exactly the well-formed instruction it decodes to (30_encoding R76, R81). -/
def Obligations.EncodeOfDecodeIsTheWord : Prop :=
  ∀ op : Word, (decode op).WellFormed = true ∧ encode (decode op) = op

/-- A word decodes to an instruction of a row exactly when it matches that row's mask and match, and to a reserved
instruction exactly when it matches no row (30_encoding R75, R76). The row values are PRESUMED (log entry 10). -/
def Obligations.DecodeSelectsTheMatchingRow : Prop :=
  ∀ op : Word,
    (∀ row ∈ definedRows, op &&& row.1 = row.2 ↔ rowOf (decode op) = some row) ∧
    (rowOf (decode op) = none ↔ ∀ row ∈ definedRows, op &&& row.1 ≠ row.2)

/-- Words the spec writes out, with what they stand for (30_encoding R75, R76; 95_test_vectors L1, L2.1, L3). 00E0, 6005, A208,
D005 and 1200 are the source's own words; 8014, F265, E19E and FA33 are PRESUMED by the spec (G1; log entry 10); that 01E0 and
5121 are reserved is its choice D13, D12 (log entry 15). -/
def Obligations.SpecWordsDecodeAsTheSpecSays : Prop :=
  decode 0x00E0 = .cls ∧ decode 0x6005 = .ldImm 0 5 ∧ decode 0xA208 = .ldI 0x208 ∧ decode 0xD005 = .drw 0 0 5 ∧
  decode 0x1200 = .jp 0x200 ∧ decode 0x8014 = .addReg 0 1 ∧ decode 0xF265 = .loadRegs 2 ∧ decode 0xE19E = .skp 1 ∧
  decode 0xFA33 = .ldBcd 0xA ∧ decode 0x01E0 = .reserved0 0x1E0 ∧ decode 0x5121 = .reserved5 1 2 1

/-- The fetch reads the bytes at pc and pc + 1, each address reduced mod 4096, the first one the high byte (20_memory R51,
R57; 40_execution R91). The wrap is the spec's choice D1 (log entry 8). -/
def Obligations.FetchReadsTwoBytesHighByteFirst : Prop :=
  ∀ s : State, s.fetchWord.toNat =
    256 * (s.mem.read (s.pc.toNat % 4096)).toNat + (s.mem.read ((s.pc.toNat + 1) % 4096)).toNat

/-- The fetch sees what was stored before it: a word written where pc points is the word the next fetch reads (20_memory
R62; 70_reset_and_hazards R251). -/
def Obligations.FetchSeesEarlierStores : Prop :=
  ∀ (s : State) (op : Word), (s.writeBytes s.pc (bytesOfWord op)).fetchWord = op

/-- A read returns the byte last written to the same cell, and a write leaves every other cell alone; two addresses are the
same cell when they agree mod 4096 (20_memory R51, R60). The wrap is the spec's choice D1 (log entry 8). -/
def Obligations.ReadReturnsTheLastWrite : Prop :=
  ∀ (s : State) (a c : Word) (b : Byte),
    (s.writeByte a b).readByte c = if a.toNat % 4096 = c.toNat % 4096 then b else s.readByte c

/-! ### The step and the frame -/

/-- When the two bytes at pc decode to `i`, the step is `exec i` on the state after the frame's start (if this is its first
cycle) and the advance, followed by the count of the cycle and, after the last, the frame's end (40_execution R90-R93). -/
def Obligations.StepRunsTheDecodedInstruction : Prop :=
  ∀ (s : State) (i : Instr), s.fault = none → 0 < s.config.cyclesPerFrame →
    decodeBytes [s.readByte s.pc, s.readByte (s.pc + 1)] = .ok (i, []) →
    step s = onNext State.leaveCycle (exec i s.enterFrame.advance) ∧ s.enterFrame.advance.pc = s.pc + 2

/-- Entering a frame replaces the keypad by the host's vector and nothing else; inside a frame nothing is entered (60
R224, R225). With no input left the keypad stays: the model's choice (log entry 4). -/
def Obligations.FrameStartLatchesTheKeys : Prop :=
  ∀ s : State,
    (s.cycle ≠ 0 → s.enterFrame = s) ∧
    (s.cycle = 0 → ∀ f fs, s.inputs = f :: fs →
      (∀ k : Key, s.enterFrame.held k = f.keys[k.val]) ∧ Unchanged (fun p => ∃ k, p = .heldKey k) s s.enterFrame) ∧
    (s.cycle = 0 → s.inputs = [] → s.enterFrame = s)

/-- Timer decrement, once per frame, after its cycles, only without a fault, never below 0, each timer on its own
(60_exceptions R222). -/
def Obligations.TimersCountDownOncePerFrame : Prop :=
  ∀ s : State,
    (s.cycle + 1 < s.config.cyclesPerFrame → s.leaveCycle.dt = s.dt ∧ s.leaveCycle.st = s.st) ∧
    (¬ s.cycle + 1 < s.config.cyclesPerFrame → s.fault = none →
      s.leaveCycle.dt.toNat = s.dt.toNat - 1 ∧ s.leaveCycle.st.toNat = s.st.toNat - 1) ∧
    (s.fault ≠ none → s.leaveCycle.dt = s.dt ∧ s.leaveCycle.st = s.st)

/-- The end of a frame signals `dirty` as it stands after the cycles and ST as it stands after the decrement, and the host's
repaint clears `dirty` (60_exceptions R224, R226). That an exhausted input list means no repaint is the model's choice (log
entry 4). -/
def Obligations.FrameEndSignalsRenderAndAudio : Prop :=
  ∀ s : State, ¬ s.cycle + 1 < s.config.cyclesPerFrame →
    s.leaveCycle.renderOut = s.dirty ∧
    (s.leaveCycle.audioOut = true ↔ s.leaveCycle.st ≠ 0) ∧
    (s.fault = none → s.st = 1 → s.leaveCycle.audioOut = false) ∧
    (s.leaveCycle.dirty = true ↔ s.dirty = true ∧ ∀ f fs, s.inputs = f :: fs → f.repaints = false) ∧
    s.leaveCycle.inputs = s.inputs.tail ∧ s.leaveCycle.cycle = 0 ∧
    Unchanged (· ∈ [Part.delay, .sound, .dirty, .inputs, .position, .signals]) s s.leaveCycle

/-- The steps of a frame make the frame the spec writes: from a frame's boundary, `cyclesPerFrame` steps (one if it is 0)
end in `frame` of the start state (60_exceptions R224; 40_execution R90). -/
def Obligations.StepsOfAFrameMakeTheFrame : Prop :=
  ∀ s : State, s.cycle = 0 →
    Host.Core.run Sys2Proof.core (max 1 s.config.cyclesPerFrame) s = .next (frame s)

/-- With no FX15 and no fault in the way, n frames take n off the delay timer, which stops at 0, whatever the number of
cycles per frame (60_exceptions R223). -/
def Obligations.DelayTimerDecaysByFrames : Prop :=
  ∀ (n : Nat) (s : State), (∀ j < n, NoDelayWrite (frames j s)) → Good (frames n s) →
    (frames n s).dt.toNat = s.dt.toNat - n

/-- Every step answers a next state: no exception leaves a cycle (40_execution R96). -/
def Obligations.EveryStepAnswersANextState : Prop :=
  ∀ s : State, ∃ t, step s = .next t

/-! ### Faults -/

/-- Once a fault is recorded, no step changes anything a program could see, the timers included; from the frame's boundary on
nothing at all changes (60_exceptions R212, R214, R224; 40_execution R90). The halt is the spec's choice D7 (log entry 7). -/
def Obligations.RecordedFaultHaltsTheMachine : Prop :=
  ∀ s : State, s.fault ≠ none →
    ∃ t, step s = .next t ∧ t.fault = s.fault ∧ OnlyChanges [.dirty, .inputs, .position, .signals] s t ∧
      (s.cycle = 0 → t = s)

/-- A step records a fault only for a CALL with 16 live entries or a RET with none, and that instruction then has no effect:
pc is its own address and registers, stack, memory, display and timers are as before (60_exceptions R210-R213). The policy is
the spec's choice D5-D7 (log entry 7). -/
def Obligations.OnlyCallAndRetFaultAndPrecisely : Prop :=
  ∀ (s t : State) (c : Fault), s.fault = none → step s = .next t → t.fault = some c →
    ((c = .stackOverflow ∧ s.sp.val = 16 ∧ ∃ nnn, decode s.fetchWord = .call nnn) ∨
      (c = .stackUnderflow ∧ s.sp.val = 0 ∧ decode s.fetchWord = .ret)) ∧
    Unchanged (fun p => p ∈ [Part.fault, .dirty, .inputs, .position, .signals] ∨ ∃ k, p = .heldKey k) s t

/-! ### Invariants -/

/-- Memory stays in its canonical form: addresses strictly rising and below 4096, no entry equal to the reset contents
(20_memory R50, R51). The form is the model's (log entry 9). -/
def Obligations.StepKeepsMemoryCanonical : Prop :=
  ∀ s t : State, s.mem.wf → step s = .next t → t.mem.wf

/-- While a get-key waits for a release, the instruction at pc stays that get-key: no other instruction runs in between
(10_state R32). -/
def Obligations.StepKeepsTheWaitAtItsGetKey : Prop :=
  ∀ s t : State, WaitsAtGetKey s → step s = .next t → WaitsAtGetKey t

/-- After every step the frame driver stands inside its frame, and the configuration is what it was (60_exceptions R224;
00_scope R7). That both are fields of the state is the model's choice (log entries 3, 13). -/
def Obligations.StepKeepsFramePositionAndConfiguration : Prop :=
  ∀ s t : State, step s = .next t → InFrame t ∧ t.config = s.config

/-- The invariants hold right after reset (70_reset_and_hazards R240, R244). -/
def Obligations.ResetMeetsTheInvariants : Prop :=
  State.reset.mem.wf ∧ WaitsAtGetKey State.reset ∧ InFrame State.reset ∧ Good State.reset

/-! ### Reset and launch -/

/-- Registers, timers and stack are zero after reset and pc is 0x200 (70_reset_and_hazards R244, first half). -/
def Obligations.ResetZeroesRegistersTimersAndStack : Prop :=
  (∀ r : Reg, State.reset.reg r = 0) ∧ State.reset.i = 0 ∧ State.reset.sp.val = 0 ∧
  (∀ k : Fin 16, State.reset.stack[k.val] = 0) ∧ State.reset.dt = 0 ∧ State.reset.st = 0 ∧ State.reset.pc = 0x200

/-- Display, dirty flag, keypad, get-key sub-state and fault register after reset: the spec's choices D7, D18, D19, D20
(log entries 7, 12). -/
def Obligations.ResetLeavesDisplayKeysAndFaultClear : Prop :=
  (∀ x y, State.reset.disp.cell x y = false) ∧ State.reset.dirty = false ∧ (∀ k, State.reset.held k = false) ∧
  State.reset.kw = .idle ∧ State.reset.kwCand = 0 ∧ State.reset.fault = none

/-- Launching with any configuration, font and ROM of at most 3584 bytes: the font lies at 0x000, the ROM at 0x200, every
other cell is zero, the memory is canonical and every other field is as after reset (70_reset_and_hazards R241-R244). That an
empty ROM is accepted is the spec's choice D30 (log entry 19). -/
def Obligations.LaunchLaysOutFontAndRom : Prop :=
  ∀ (config : Config) (font : Vector Byte 80) (inputs : List HostFrame) (rom : List Byte), rom.length ≤ 3584 →
    ∃ t, launch config font inputs (some rom) = .next t ∧
      t = { State.reset with mem := t.mem, config := config, inputs := inputs } ∧ t.mem.wf ∧
      (∀ k (h : k < 80), t.mem.read k = font[k]) ∧
      (∀ k (h : k < rom.length), t.mem.read (0x200 + k) = rom[k]) ∧
      (∀ a, 80 ≤ a → a < 0x200 → t.mem.read a = 0) ∧
      (∀ a, 0x200 + rom.length ≤ a → t.mem.read a = 0)

/-- A ROM that is missing or longer than 4096 - 512 bytes leaves no initial state (70_reset_and_hazards R247). -/
def Obligations.LaunchRefusesAMissingOrOversizedRom : Prop :=
  ∀ (config : Config) (font : Vector Byte 80) (inputs : List HostFrame),
    launch config font inputs none = .refused .romMissing ∧
    ∀ rom : List Byte, 4096 - 512 < rom.length → launch config font inputs (some rom) = .refused .romTooLarge

/-! ### Control flow -/

/-- JP: pc becomes NNN, zero-extended, and nothing else changes (41_control_flow R101). -/
def Obligations.JumpSetsThePcToItsTarget : Prop :=
  Decodes 0xF000 0x1000 (fun op => .jp (fieldNNN op)) ∧
  ∀ (nnn : Addr) (s : State), ∃ t, exec (.jp nnn) s = .next t ∧ t.pc.toNat = nnn.toNat ∧ OnlyChanges [.counter] s t

/-- JP V0: pc becomes NNN + V0, and nothing else changes (41_control_flow R107). That the sum is held in 16 bits and not reduced
mod 4096 is the spec's choice D3 (log entry 8). -/
def Obligations.JumpWithOffsetAddsV0 : Prop :=
  ∀ (nnn : Addr) (s : State),
    ∃ t, exec (.jpV0 nnn) s = .next t ∧ t.pc.toNat = nnn.toNat + (s.reg 0).toNat ∧ OnlyChanges [.counter] s t

/-- CALL with fewer than 16 live entries pushes the address after the call and jumps (41_control_flow R102). The convention
of the stack pointer is the spec's choice D4 (log entry 16). -/
def Obligations.CallPushesTheReturnAddress : Prop :=
  ∀ (nnn : Addr) (s : State) (h : s.sp.val < 16),
    ∃ t, exec (.call nnn) s = .next t ∧ t.stack[s.sp.val] = s.pc ∧ t.sp.val = s.sp.val + 1 ∧ t.pc.toNat = nnn.toNat ∧
      OnlyChanges [.slot ⟨s.sp.val, h⟩, .depth, .counter] s t

/-- RET with a live entry pops the most recent one into pc; the slot keeps its value (41_control_flow R100). The convention
of the stack pointer is the spec's choice D4 (log entry 16). -/
def Obligations.ReturnPopsTheReturnAddress : Prop :=
  ∀ (s : State) (k : Fin 16), s.sp.val = k.val + 1 →
    ∃ t, exec .ret s = .next t ∧ t.sp.val = k.val ∧ t.pc = s.stack[k.val] ∧ OnlyChanges [.depth, .counter] s t

/-- CALL with 16 live entries and RET with none take their fault: the cause is recorded, pc is the instruction's own address,
nothing else changes (60_exceptions R211, R212). The policy is the spec's choice D5-D7 (log entry 7). -/
def Obligations.StackFaultsAreTaken : Prop :=
  (∀ (nnn : Addr) (s : State), s.sp.val = 16 →
    ∃ t, exec (.call nnn) s = .next t ∧ t.fault = some .stackOverflow ∧ t.pc = s.pc - 2 ∧
      OnlyChanges [.fault, .counter] s t) ∧
  (∀ s : State, s.sp.val = 0 →
    ∃ t, exec .ret s = .next t ∧ t.fault = some .stackUnderflow ∧ t.pc = s.pc - 2 ∧ OnlyChanges [.fault, .counter] s t)

/-- A call followed, whenever its entry is on top again and intact, by a return goes back to the instruction after the call
(41_control_flow R109). -/
def Obligations.CallThenReturnComesBack : Prop :=
  ∀ (nnn : Addr) (s t u : State) (h : s.sp.val < 16), exec (.call nnn) s = .next t →
    u.sp = t.sp → u.stack[s.sp.val] = t.stack[s.sp.val] →
    ∃ w, exec .ret u = .next w ∧ w.pc = s.pc ∧ w.sp = s.sp

/-- The skips on an immediate: pc moves two further exactly when the comparison holds (41_control_flow R103, R104). -/
def Obligations.ImmediateSkips : Prop :=
  ∀ (x : Reg) (nn : Byte) (s : State),
    (∃ t, exec (.seImm x nn) s = .next t ∧ t.pc = (if s.reg x = nn then s.pc + 2 else s.pc) ∧ OnlyChanges [.counter] s t) ∧
    (∃ t, exec (.sneImm x nn) s = .next t ∧ t.pc = (if s.reg x = nn then s.pc else s.pc + 2) ∧ OnlyChanges [.counter] s t)

/-- The skips on two registers (41_control_flow R105, R106). -/
def Obligations.RegisterSkips : Prop :=
  ∀ (x y : Reg) (s : State),
    (∃ t, exec (.seReg x y) s = .next t ∧ t.pc = (if s.reg x = s.reg y then s.pc + 2 else s.pc) ∧
      OnlyChanges [.counter] s t) ∧
    (∃ t, exec (.sneReg x y) s = .next t ∧ t.pc = (if s.reg x = s.reg y then s.pc else s.pc + 2) ∧
      OnlyChanges [.counter] s t)

/-! ### Registers and the ALU -/

/-- LD VX, NN: reading VX afterwards gives NN; nothing else changes, also when VX is VF (42_alu R121). -/
def Obligations.LoadImmediateSetsTheRegister : Prop :=
  Decodes 0xF000 0x6000 (fun op => .ldImm (fieldX op) (fieldNN op)) ∧
  ∀ (x : Reg) (nn : Byte) (s : State), ∃ t, exec (.ldImm x nn) s = .next t ∧ t.reg x = nn ∧ OnlyChanges [.reg x] s t

/-- LD VX, VY copies, and ADD VX, NN wraps mod 256 without a flag, also when VX is VF (42_alu R122, R126). -/
def Obligations.CopyAndAddImmediateWriteOneRegister : Prop :=
  ∀ (x y : Reg) (nn : Byte) (s : State),
    (∃ t, exec (.ldReg x y) s = .next t ∧ t.reg x = s.reg y ∧ OnlyChanges [.reg x] s t) ∧
    (∃ t, exec (.addImm x nn) s = .next t ∧ (t.reg x).toNat = ((s.reg x).toNat + nn.toNat) % 256 ∧
      OnlyChanges [.reg x] s t)

/-- OR, AND and XOR write VX; under quirkVfReset they end with VF = 0, written after VX, and without it they touch no flag
(42_alu R124, R127-R129). The order under the option is the spec's choice D17 (log entry 18). -/
def Obligations.LogicResultsAndFlagReset : Prop :=
  ∀ (x y : Reg) (s : State) (i : Instr) (r : Byte),
    (i, r) ∈ [(Instr.orReg x y, s.reg x ||| s.reg y), (.andReg x y, s.reg x &&& s.reg y), (.xorReg x y, s.reg x ^^^ s.reg y)] →
    ∃ t, exec i s = .next t ∧
      (s.config.quirks.quirkVfReset = false → t.reg x = r ∧ OnlyChanges [.reg x] s t) ∧
      (s.config.quirks.quirkVfReset = true →
        t.reg vF = 0 ∧ (x ≠ vF → t.reg x = r) ∧ OnlyChanges [.reg x, .reg vF] s t)

/-- ADD VX, VY: the sum mod 256, and VF = 1 exactly on carry; when X = F the flag is what VF holds (42_alu R123, R130). -/
def Obligations.AddSetsCarry : Prop :=
  ∀ (x y : Reg) (s : State), ∃ t, exec (.addReg x y) s = .next t ∧
    (x ≠ vF → (t.reg x).toNat = ((s.reg x).toNat + (s.reg y).toNat) % 256) ∧
    (t.reg vF).toNat = (if (s.reg x).toNat + (s.reg y).toNat > 255 then 1 else 0) ∧
    OnlyChanges [.reg x, .reg vF] s t

/-- SUB and SUBN: the difference mod 256, and VF = 0 exactly on borrow (42_alu R123, R131, R133). That VY is SUBN's minuend is
PRESUMED by the spec (log entry 11). -/
def Obligations.SubtractionsSetNotBorrow : Prop :=
  ∀ (x y : Reg) (s : State),
    (∃ t, exec (.subReg x y) s = .next t ∧
      (x ≠ vF → ((t.reg x).toNat : Int) = ((s.reg x).toNat - (s.reg y).toNat : Int) % 256) ∧
      (t.reg vF).toNat = (if (s.reg x).toNat < (s.reg y).toNat then 0 else 1) ∧ OnlyChanges [.reg x, .reg vF] s t) ∧
    (∃ t, exec (.subn x y) s = .next t ∧
      (x ≠ vF → ((t.reg x).toNat : Int) = ((s.reg y).toNat - (s.reg x).toNat : Int) % 256) ∧
      (t.reg vF).toNat = (if (s.reg y).toNat < (s.reg x).toNat then 0 else 1) ∧ OnlyChanges [.reg x, .reg vF] s t)

/-- SHR and SHL shift VX, or VY under quirkShiftUsesVy, by one place into VX, and VF is the bit put out of the shifted operand
(42_alu R125, R132, R134). The flag's source under the option is the spec's choice D16 (log entry 18). -/
def Obligations.ShiftsByOneSetTheBitPutOut : Prop :=
  ∀ (x y : Reg) (s : State) (v : Byte), v = (if s.config.quirks.quirkShiftUsesVy = true then s.reg y else s.reg x) →
    (∃ t, exec (.shr x y) s = .next t ∧ (x ≠ vF → (t.reg x).toNat = v.toNat / 2) ∧
      (t.reg vF).toNat = v.toNat % 2 ∧ OnlyChanges [.reg x, .reg vF] s t) ∧
    (∃ t, exec (.shl x y) s = .next t ∧ (x ≠ vF → (t.reg x).toNat = v.toNat * 2 % 256) ∧
      (t.reg vF).toNat = v.toNat / 128 ∧ OnlyChanges [.reg x, .reg vF] s t)

/-- RND: VX is the next free byte masked with NN, so a bit is set only where NN has one, and the draw is used up (42_alu
R139). The free byte is Config.randomByte (log entry 5). -/
def Obligations.RandomByteIsMasked : Prop :=
  ∀ (x : Reg) (nn : Byte) (s : State), ∃ t, exec (.rnd x nn) s = .next t ∧
    (∀ k, (t.reg x).getLsbD k = true ↔ nn.getLsbD k = true ∧ (Config.randomByte s.draws).getLsbD k = true) ∧
    t.draws = s.draws + 1 ∧ OnlyChanges [.reg x, .draws] s t

/-! ### Index and memory -/

/-- LD I: I becomes NNN, zero-extended (43_index_memory R150). -/
def Obligations.LoadIndexSetsI : Prop :=
  Decodes 0xF000 0xA000 (fun op => .ldI (fieldNNN op)) ∧
  ∀ (nnn : Addr) (s : State), ∃ t, exec (.ldI nnn) s = .next t ∧ t.i.toNat = nnn.toNat ∧ OnlyChanges [.index] s t

/-- ADD I, VX wraps mod 2^16 without a flag, and LD F, VX gives five times the low nibble of VX (43_index_memory R151, R152).
The wrap is the spec's choice D2 (log entry 8). -/
def Obligations.IndexAdditionAndGlyphAddress : Prop :=
  ∀ (x : Reg) (s : State),
    (∃ t, exec (.addI x) s = .next t ∧ t.i.toNat = (s.i.toNat + (s.reg x).toNat) % 65536 ∧ OnlyChanges [.index] s t) ∧
    (∃ t, exec (.ldFont x) s = .next t ∧ t.i.toNat = 5 * ((s.reg x).toNat % 16) ∧ OnlyChanges [.index] s t)

/-- LD B, VX stores the hundreds, tens and ones digits at I, I + 1 and I + 2 and changes nothing else (43_index_memory R154,
R156). The wrap of the addresses is the spec's choice D1 (log entry 8). -/
def Obligations.BcdStoresTheThreeDigits : Prop :=
  ∀ (x : Reg) (s : State), ∃ t, exec (.ldBcd x) s = .next t ∧
    100 * (t.readByte s.i).toNat + 10 * (t.readByte (s.i + 1)).toNat + (t.readByte (s.i + 2)).toNat = (s.reg x).toNat ∧
    (t.readByte s.i).toNat ≤ 2 ∧ (t.readByte (s.i + 1)).toNat ≤ 9 ∧ (t.readByte (s.i + 2)).toNat ≤ 9 ∧
    OnlyChanges (bytesFromI s 3) s t

/-- LD [I], VX stores V0 to VX inclusive from I upwards; I moves by X + 1 only under quirkStoreAdvancesI (43_index_memory R157,
R158). The amount is PRESUMED by the spec and the wraps are its choices D1, D2 (log entries 8, 11). -/
def Obligations.StoreRegistersThroughX : Prop :=
  ∀ (x : Reg) (s : State), ∃ t, exec (.storeRegs x) s = .next t ∧
    (∀ r : Reg, r ≤ x → t.readByte (s.i + BitVec.ofNat 16 r.val) = s.reg r) ∧
    t.i = (if s.config.quirks.quirkStoreAdvancesI = true then s.i + BitVec.ofNat 16 (x.val + 1) else s.i) ∧
    OnlyChanges (.index :: bytesFromI s (x.val + 1)) s t

/-- LD VX, [I] loads V0 to VX inclusive from I upwards, VF as a plain register; I moves by X + 1 only under
quirkLoadAdvancesI (43_index_memory R159, R160). The amount is PRESUMED by the spec and the wraps are its choices D1, D2 (log
entries 8, 11). -/
def Obligations.LoadRegistersThroughX : Prop :=
  ∀ (x : Reg) (s : State), ∃ t, exec (.loadRegs x) s = .next t ∧
    (∀ r : Reg, r ≤ x → t.reg r = s.readByte (s.i + BitVec.ofNat 16 r.val)) ∧
    t.i = (if s.config.quirks.quirkLoadAdvancesI = true then s.i + BitVec.ofNat 16 (x.val + 1) else s.i) ∧
    Unchanged (fun p => p = .index ∨ ∃ r : Reg, r ≤ x ∧ p = .reg r) s t

/-- Storing V0 to VX and loading them back from the same I, in any state whose memory is the one stored, restores them
(43_index_memory R157, R160). That this holds across the top of memory too rests on the wrap of the addresses, the spec's choice
D1 (log entry 8). -/
def Obligations.StoreThenLoadRestoresRegisters : Prop :=
  ∀ (x : Reg) (s t u : State), exec (.storeRegs x) s = .next t → u.i = s.i → u.mem = t.mem →
    ∃ w, exec (.loadRegs x) u = .next w ∧ ∀ r : Reg, r ≤ x → w.reg r = s.reg r

/-! ### Display -/

/-- CLS clears every cell and marks the buffer dirty, changed or not; nothing else changes (44_display R170). -/
def Obligations.ClearBlanksTheDisplay : Prop :=
  Decodes 0xFFFF 0x00E0 (fun _ => .cls) ∧
  ∀ s : State, ∃ t, exec .cls s = .next t ∧ (∀ x y, t.disp.cell x y = false) ∧ t.dirty = true ∧
    Unchanged (fun p => p = .dirty ∨ IsCell p) s t

/-- DRW inverts exactly the cells under a 1 bit of the sprite: origin reduced into the buffer and read before VF is written,
row k from I + k, bit 7 leftmost, bits past the right or bottom edge drawn nowhere; it marks the buffer dirty and changes no
register but VF, also for N = 0 (44_display R171-R173, R175-R178). Clipping at 64 and 32 is the spec's choice D8 (log entry 17). -/
def Obligations.DrawInvertsTheCellsOfTheSprite : Prop :=
  ∀ (x y : Reg) (n : Nibble) (s : State), ∃ t, exec (.drw x y n) s = .next t ∧
    (∀ cx cy, t.disp.cell cx cy = (s.disp.cell cx cy ^^ spriteBit s x y n cx cy)) ∧ t.dirty = true ∧
    Unchanged (fun p => p ∈ [Part.reg vF, .dirty] ∨ IsCell p) s t

/-- After DRW, VF is 1 exactly when some cell went from 1 to 0, and 0 otherwise (44_display R174). -/
def Obligations.DrawFlagsACollision : Prop :=
  ∀ (x y : Reg) (n : Nibble) (s : State), ∃ t, exec (.drw x y n) s = .next t ∧
    ((∃ cx cy, s.disp.cell cx cy = true ∧ t.disp.cell cx cy = false) → t.reg vF = 1) ∧
    ((¬ ∃ cx cy, s.disp.cell cx cy = true ∧ t.disp.cell cx cy = false) → t.reg vF = 0)

/-- Drawing the same sprite twice restores the buffer, and the second draw collides exactly when a visible 1 bit of the sprite
lies on a cell that was 0 before the first; on a clear display that is R179's "at least one 1 bit inside the clipped area". The
origin registers must not be VF (44_display R171-R175, R179; 90_conflicts C9; log entry 20). Which bits are visible rests on the
clipping at 64 and 32, the spec's choice D8 (log entry 17). -/
def Obligations.DrawingTwiceRestoresTheDisplay : Prop :=
  ∀ (x y : Reg) (n : Nibble) (s t w : State), x ≠ vF → y ≠ vF →
    exec (.drw x y n) s = .next t → exec (.drw x y n) t = .next w →
    w.disp = s.disp ∧ (w.reg vF = 1 ∨ w.reg vF = 0) ∧
      (w.reg vF = 1 ↔ ∃ cx cy, spriteBit s x y n cx cy = true ∧ s.disp.cell cx cy = false)

/-- The flag sentence of 44_display R179 as it is written, without the clear display it takes for granted: expected to FAIL,
because a sprite all of whose visible bits lie on set cells collides on the first draw only (R174 decides; log entry 20). Which
bits are visible is the spec's choice D8 (log entry 17). -/
def Obligations.SecondDrawFlagAsWrittenInTheXorLaw : Prop :=
  ∀ (x y : Reg) (n : Nibble) (s t w : State), x ≠ vF → y ≠ vF →
    exec (.drw x y n) s = .next t → exec (.drw x y n) t = .next w →
    (w.reg vF = 1 ↔ ∃ cx cy, spriteBit s x y n cx cy = true)

/-! ### Keypad and timers -/

/-- SKP and SKNP test the key numbered by the low nibble of VX (45_keypad_timer_ops R190, R191). -/
def Obligations.KeySkips : Prop :=
  ∀ (x : Reg) (s : State) (k : Key), k.val = (s.reg x).toNat % 16 →
    (∃ t, exec (.skp x) s = .next t ∧ t.pc = (if s.held k = true then s.pc + 2 else s.pc) ∧ OnlyChanges [.counter] s t) ∧
    (∃ t, exec (.sknp x) s = .next t ∧ t.pc = (if s.held k = true then s.pc else s.pc + 2) ∧ OnlyChanges [.counter] s t)

/-- FX07 reads DT, FX15 and FX18 set DT and ST, and nothing else changes (45_keypad_timer_ops R192-R194). -/
def Obligations.TimerReadsAndWrites : Prop :=
  ∀ (x : Reg) (s : State),
    (∃ t, exec (.ldFromDT x) s = .next t ∧ t.reg x = s.dt ∧ OnlyChanges [.reg x] s t) ∧
    (∃ t, exec (.ldDT x) s = .next t ∧ t.dt = s.reg x ∧ OnlyChanges [.delay] s t) ∧
    (∃ t, exec (.ldST x) s = .next t ∧ t.st = s.reg x ∧ OnlyChanges [.sound] s t)

/-- The get-key state machine: Idle with no key held re-executes; Idle with a key held records a held key and re-executes;
AwaitingRelease re-executes while the candidate is held, and otherwise delivers it and returns to Idle
(45_keypad_timer_ops R196). -/
def Obligations.GetKeyStateMachine : Prop :=
  ∀ (x : Reg) (s : State), ∃ t, exec (.ldKey x) s = .next t ∧
    (s.kw = .idle → (∀ k, s.held k = false) → t.pc = s.pc - 2 ∧ OnlyChanges [.counter] s t) ∧
    (s.kw = .idle → (∃ k, s.held k = true) →
      t.kw = .awaitingRelease ∧ s.held t.kwCand = true ∧ t.pc = s.pc - 2 ∧ OnlyChanges [.wait, .counter, .draws] s t) ∧
    (s.kw = .awaitingRelease → s.held s.kwCand = true → t.pc = s.pc - 2 ∧ OnlyChanges [.counter] s t) ∧
    (s.kw = .awaitingRelease → s.held s.kwCand = false →
      (t.reg x).toNat = s.kwCand.val ∧ t.kw = .idle ∧ t.kwCand = s.kwCand ∧ t.pc = s.pc ∧ OnlyChanges [.reg x, .wait] s t)

/-- The choice among several held keys is free: an idle get-key with keys held, of which `k` is the lowest and `ks` are the
others, records the key that the next free value picks from them and re-executes; the keys that some free value picks are exactly
the held ones; and a value is used up exactly when there is a choice (45_keypad_timer_ops R196, R197). The free choice is the
spec's D9; that nothing is drawn for a single held key is the model's (log entry 6). -/
def Obligations.AnyHeldKeyCanBeTheCandidate : Prop :=
  ∀ (x : Reg) (s : State) (k : Key) (ks : List Key), s.kw = .idle → s.heldKeys = k :: ks →
    (∃ t, exec (.ldKey x) s = .next t ∧ t.kw = .awaitingRelease ∧ t.kwCand = pickKey (Config.keyChoice s.draws) k ks ∧
      t.pc = s.pc - 2 ∧ t.draws = (if ks = [] then s.draws else s.draws + 1) ∧ OnlyChanges [.wait, .counter, .draws] s t) ∧
    ∀ j : Key, s.held j = true ↔ ∃ n, pickKey n k ks = j

/-- A get-key that finds no key held keeps the machine where it is: the step leaves pc, the registers, I, the stack, memory and
the display as they were (45_keypad_timer_ops R199). -/
def Obligations.GetKeyWithoutAKeyStaysPut : Prop :=
  ∀ (s : State) (x : Reg), s.fault = none → 0 < s.config.cyclesPerFrame → decode s.fetchWord = .ldKey x → s.kw = .idle →
    (∀ k, s.enterFrame.held k = false) →
    ∃ t, step s = .next t ∧
      Unchanged (fun p => p ∈ [Part.delay, .sound, .dirty, .inputs, .position, .signals] ∨ ∃ k, p = .heldKey k) s t

/-! ### Reserved words and whole-machine rules -/

/-- A word that matches no row of the decode table executes as a no-op, whatever its fields: the cycle's advance is its only
effect (30_encoding R76; 42_alu R135). Which words these are rests on the spec's choices D12, D13, D27 (log entries 10, 15). -/
def Obligations.ReservedWordsAreNoOps : Prop :=
  (∀ (op : Word) (s : State), (∀ row ∈ definedRows, op &&& row.1 ≠ row.2) → exec (decode op) s = .next s) ∧
  (∀ (nnn : Addr) (x y : Reg) (n : Nibble) (nn : Byte) (s : State),
    exec (.reserved0 nnn) s = .next s ∧ exec (.reserved5 x y n) s = .next s ∧ exec (.reserved8 x y n) s = .next s ∧
    exec (.reserved9 x y n) s = .next s ∧ exec (.reservedE x nn) s = .next s ∧ exec (.reservedF x nn) s = .next s)

/-- Every instruction completes, and changes only the pieces the spec gives it: in particular only FX33 and FX55 change memory,
only 2NNN and 00EE the call stack, only 00E0 and DXYN the display, only FX0A the get-key sub-state, none the keypad
(20_memory R54-R56; 10_state R23-R32). What CALL with 16 live entries and RET with none change is the spec's choice D5-D7 (log
entry 7). -/
def Obligations.InstructionsChangeOnlyWhatTheSpecNames : Prop :=
  ∀ (i : Instr) (s : State), ∃ t, exec i s = .next t ∧ Unchanged (Writes i s) s t

/-- No instruction reads ST, the dirty flag, the signals, the host's inputs or the frame position: two states that differ
only there go to states that differ only there (10_state R28, R31, R34). -/
def Obligations.HostSideStateIsNeverRead : Prop :=
  ∀ (i : Instr) (s s' t : State), OnlyChanges [.sound, .dirty, .inputs, .position, .signals] s s' → s'.mem = s.mem →
    exec i s = .next t →
    ∃ t', exec i s' = .next t' ∧ OnlyChanges [.sound, .dirty, .inputs, .position, .signals] t t' ∧ t'.mem = t.mem
end

