-- ==== Sys2Proof/Laws/Decode.lean ====
section
/-! SUPPORT. Words as numbers: the value of each field and of each of the encoder's words (30_encoding R71), and a masked match
as a condition on the fields (R75). -/

namespace Sys2Proof

/-! ### Field values -/

theorem fieldF_toNat (op : Word) : (fieldF op).toNat = op.toNat / 4096 := by
  simp only [fieldF, BitVec.extractLsb'_toNat, Nat.shiftRight_eq_div_pow]; omega

theorem fieldX_val (op : Word) : (fieldX op).val = op.toNat / 256 % 16 := by
  simp only [fieldX, BitVec.val_toFin, BitVec.extractLsb'_toNat, Nat.shiftRight_eq_div_pow]

theorem fieldY_val (op : Word) : (fieldY op).val = op.toNat / 16 % 16 := by
  simp only [fieldY, BitVec.val_toFin, BitVec.extractLsb'_toNat, Nat.shiftRight_eq_div_pow]

theorem fieldN_toNat (op : Word) : (fieldN op).toNat = op.toNat % 16 := by
  simp [fieldN, BitVec.extractLsb'_toNat]

theorem fieldNN_toNat (op : Word) : (fieldNN op).toNat = op.toNat % 256 := by
  simp [fieldNN, BitVec.extractLsb'_toNat]

theorem fieldNNN_toNat (op : Word) : (fieldNNN op).toNat = op.toNat % 4096 := by
  simp [fieldNNN, BitVec.extractLsb'_toNat]

/-! ### Word values -/

theorem toNat_append_eq {m n : Nat} (a : BitVec m) (b : BitVec n) : (a ++ b).toNat = a.toNat * 2 ^ n + b.toNat := by
  rw [BitVec.toNat_append, ← Nat.shiftLeft_add_eq_or_of_lt b.isLt, Nat.shiftLeft_eq]

theorem wordFXYN_toNat (f : Nibble) (x y : Reg) (n : Nibble) :
    (wordFXYN f x y n).toNat = f.toNat * 4096 + x.val * 256 + y.val * 16 + n.toNat := by
  refine (toNat_append_eq (f ++ BitVec.ofFin (w := 4) x ++ BitVec.ofFin (w := 4) y) n).trans ?_
  rw [toNat_append_eq, toNat_append_eq]
  change ((f.toNat * 2 ^ 4 + x.val) * 2 ^ 4 + y.val) * 2 ^ 4 + n.toNat = _
  omega

theorem wordFXNN_toNat (f : Nibble) (x : Reg) (nn : Byte) :
    (wordFXNN f x nn).toNat = f.toNat * 4096 + x.val * 256 + nn.toNat := by
  refine (toNat_append_eq (f ++ BitVec.ofFin (w := 4) x) nn).trans ?_
  rw [toNat_append_eq]
  change (f.toNat * 2 ^ 4 + x.val) * 2 ^ 8 + nn.toNat = _
  omega

theorem wordFNNN_toNat (f : Nibble) (nnn : Addr) : (wordFNNN f nnn).toNat = f.toNat * 4096 + nnn.toNat :=
  (toNat_append_eq f nnn).trans (by omega)

theorem wordOfBytes_toNat (hi lo : Byte) : (wordOfBytes hi lo).toNat = hi.toNat * 256 + lo.toNat :=
  (toNat_append_eq hi lo).trans (by omega)

/-! ### Fields of the encoder's words -/

@[simp] theorem fieldF_wordFXYN (f : Nibble) (x y : Reg) (n : Nibble) : fieldF (wordFXYN f x y n) = f := by
  apply BitVec.eq_of_toNat_eq; rw [fieldF_toNat, wordFXYN_toNat]; omega

@[simp] theorem fieldX_wordFXYN (f : Nibble) (x y : Reg) (n : Nibble) : fieldX (wordFXYN f x y n) = x := by
  apply Fin.ext; rw [fieldX_val, wordFXYN_toNat]; omega

@[simp] theorem fieldY_wordFXYN (f : Nibble) (x y : Reg) (n : Nibble) : fieldY (wordFXYN f x y n) = y := by
  apply Fin.ext; rw [fieldY_val, wordFXYN_toNat]; omega

@[simp] theorem fieldN_wordFXYN (f : Nibble) (x y : Reg) (n : Nibble) : fieldN (wordFXYN f x y n) = n := by
  apply BitVec.eq_of_toNat_eq; rw [fieldN_toNat, wordFXYN_toNat]; omega

@[simp] theorem fieldF_wordFXNN (f : Nibble) (x : Reg) (nn : Byte) : fieldF (wordFXNN f x nn) = f := by
  apply BitVec.eq_of_toNat_eq; rw [fieldF_toNat, wordFXNN_toNat]; omega

@[simp] theorem fieldX_wordFXNN (f : Nibble) (x : Reg) (nn : Byte) : fieldX (wordFXNN f x nn) = x := by
  apply Fin.ext; rw [fieldX_val, wordFXNN_toNat]; omega

@[simp] theorem fieldNN_wordFXNN (f : Nibble) (x : Reg) (nn : Byte) : fieldNN (wordFXNN f x nn) = nn := by
  apply BitVec.eq_of_toNat_eq; rw [fieldNN_toNat, wordFXNN_toNat]; omega

@[simp] theorem fieldF_wordFNNN (f : Nibble) (nnn : Addr) : fieldF (wordFNNN f nnn) = f := by
  apply BitVec.eq_of_toNat_eq; rw [fieldF_toNat, wordFNNN_toNat]; omega

@[simp] theorem fieldNNN_wordFNNN (f : Nibble) (nnn : Addr) : fieldNNN (wordFNNN f nnn) = nnn := by
  apply BitVec.eq_of_toNat_eq; rw [fieldNNN_toNat, wordFNNN_toNat]; omega

/-! ### A word rebuilt from its fields -/

theorem wordFXYN_fields (op : Word) : wordFXYN (fieldF op) (fieldX op) (fieldY op) (fieldN op) = op := by
  apply BitVec.eq_of_toNat_eq
  rw [wordFXYN_toNat, fieldF_toNat, fieldX_val, fieldY_val, fieldN_toNat]; omega

theorem wordFXNN_fields (op : Word) : wordFXNN (fieldF op) (fieldX op) (fieldNN op) = op := by
  apply BitVec.eq_of_toNat_eq
  rw [wordFXNN_toNat, fieldF_toNat, fieldX_val, fieldNN_toNat]; omega

theorem wordFNNN_fields (op : Word) : wordFNNN (fieldF op) (fieldNNN op) = op := by
  apply BitVec.eq_of_toNat_eq
  rw [wordFNNN_toNat, fieldF_toNat, fieldNNN_toNat]; omega

/-! ### The masks of the decode table as conditions on fields (30_encoding R75) -/

theorem getLsbD_wordFNNN (f : Nibble) (nnn : Addr) (i : Nat) :
    (wordFNNN f nnn).getLsbD i = if i < 12 then nnn.getLsbD i else f.getLsbD (i - 12) := BitVec.getLsbD_append

theorem getLsbD_wordFXNN (f : Nibble) (x : Reg) (nn : Byte) (i : Nat) : (wordFXNN f x nn).getLsbD i =
    if i < 8 then nn.getLsbD i else if i < 12 then (BitVec.ofFin (w := 4) x).getLsbD (i - 8) else f.getLsbD (i - 12) := by
  refine (BitVec.getLsbD_append (x := f ++ BitVec.ofFin (w := 4) x) (y := nn)).trans ?_
  rw [BitVec.getLsbD_append, Nat.sub_sub]
  split_ifs <;> first | rfl | omega

theorem getLsbD_wordFXYN (f : Nibble) (x y : Reg) (n : Nibble) (i : Nat) : (wordFXYN f x y n).getLsbD i =
    if i < 4 then n.getLsbD i else if i < 8 then (BitVec.ofFin (w := 4) y).getLsbD (i - 4)
    else if i < 12 then (BitVec.ofFin (w := 4) x).getLsbD (i - 8) else f.getLsbD (i - 12) := by
  refine (BitVec.getLsbD_append (x := f ++ BitVec.ofFin (w := 4) x ++ BitVec.ofFin (w := 4) y) (y := n)).trans ?_
  rw [BitVec.getLsbD_append, BitVec.getLsbD_append, Nat.sub_sub, Nat.sub_sub]
  split_ifs <;> first | rfl | omega

theorem and_F000 (op : Word) : op &&& 0xF000 = wordFNNN (fieldF op) 0 := by
  apply BitVec.eq_of_getLsbD_eq; intro i hi
  rw [getLsbD_wordFNNN, BitVec.getLsbD_and]
  interval_cases i <;> simp [fieldF]

theorem and_F00F (op : Word) : op &&& 0xF00F = wordFXYN (fieldF op) 0 0 (fieldN op) := by
  apply BitVec.eq_of_getLsbD_eq; intro i hi
  rw [getLsbD_wordFXYN, BitVec.getLsbD_and]
  interval_cases i <;> simp [fieldF, fieldN]

theorem and_F0FF (op : Word) : op &&& 0xF0FF = wordFXNN (fieldF op) 0 (fieldNN op) := by
  apply BitVec.eq_of_getLsbD_eq; intro i hi
  rw [getLsbD_wordFXNN, BitVec.getLsbD_and]
  interval_cases i <;> simp [fieldF, fieldNN]

theorem and_FFFF (op : Word) : op &&& 0xFFFF = op := by
  apply BitVec.eq_of_getLsbD_eq; intro i hi
  rw [BitVec.getLsbD_and]
  interval_cases i <;> simp

end Sys2Proof
end

