-- ==== Sys2Proof/Laws/State.lean ====
section
/-! SUPPORT. One lemma per field of the state per update: what each named update leaves in each field. -/

namespace Sys2Proof.Machine

/-! ### `setReg` -/

@[simp] theorem State.setReg_mem (s : State) (r : Reg) (b : Byte) : (s.setReg r b).mem = s.mem := rfl
@[simp] theorem State.setReg_v (s : State) (r : Reg) (b : Byte) : (s.setReg r b).v = s.v.set r.val b := rfl
@[simp] theorem State.setReg_i (s : State) (r : Reg) (b : Byte) : (s.setReg r b).i = s.i := rfl
@[simp] theorem State.setReg_pc (s : State) (r : Reg) (b : Byte) : (s.setReg r b).pc = s.pc := rfl
@[simp] theorem State.setReg_sp (s : State) (r : Reg) (b : Byte) : (s.setReg r b).sp = s.sp := rfl
@[simp] theorem State.setReg_stack (s : State) (r : Reg) (b : Byte) : (s.setReg r b).stack = s.stack := rfl
@[simp] theorem State.setReg_dt (s : State) (r : Reg) (b : Byte) : (s.setReg r b).dt = s.dt := rfl
@[simp] theorem State.setReg_st (s : State) (r : Reg) (b : Byte) : (s.setReg r b).st = s.st := rfl
@[simp] theorem State.setReg_key (s : State) (r : Reg) (b : Byte) : (s.setReg r b).key = s.key := rfl
@[simp] theorem State.setReg_disp (s : State) (r : Reg) (b : Byte) : (s.setReg r b).disp = s.disp := rfl
@[simp] theorem State.setReg_dirty (s : State) (r : Reg) (b : Byte) : (s.setReg r b).dirty = s.dirty := rfl
@[simp] theorem State.setReg_kw (s : State) (r : Reg) (b : Byte) : (s.setReg r b).kw = s.kw := rfl
@[simp] theorem State.setReg_kwCand (s : State) (r : Reg) (b : Byte) : (s.setReg r b).kwCand = s.kwCand := rfl
@[simp] theorem State.setReg_fault (s : State) (r : Reg) (b : Byte) : (s.setReg r b).fault = s.fault := rfl
@[simp] theorem State.setReg_config (s : State) (r : Reg) (b : Byte) : (s.setReg r b).config = s.config := rfl
@[simp] theorem State.setReg_inputs (s : State) (r : Reg) (b : Byte) : (s.setReg r b).inputs = s.inputs := rfl
@[simp] theorem State.setReg_cycle (s : State) (r : Reg) (b : Byte) : (s.setReg r b).cycle = s.cycle := rfl
@[simp] theorem State.setReg_renderOut (s : State) (r : Reg) (b : Byte) : (s.setReg r b).renderOut = s.renderOut := rfl
@[simp] theorem State.setReg_audioOut (s : State) (r : Reg) (b : Byte) : (s.setReg r b).audioOut = s.audioOut := rfl
@[simp] theorem State.setReg_draws (s : State) (r : Reg) (b : Byte) : (s.setReg r b).draws = s.draws := rfl

/-! ### `setI` -/

@[simp] theorem State.setI_mem (s : State) (w : Word) : (s.setI w).mem = s.mem := rfl
@[simp] theorem State.setI_v (s : State) (w : Word) : (s.setI w).v = s.v := rfl
@[simp] theorem State.setI_i (s : State) (w : Word) : (s.setI w).i = w := rfl
@[simp] theorem State.setI_pc (s : State) (w : Word) : (s.setI w).pc = s.pc := rfl
@[simp] theorem State.setI_sp (s : State) (w : Word) : (s.setI w).sp = s.sp := rfl
@[simp] theorem State.setI_stack (s : State) (w : Word) : (s.setI w).stack = s.stack := rfl
@[simp] theorem State.setI_dt (s : State) (w : Word) : (s.setI w).dt = s.dt := rfl
@[simp] theorem State.setI_st (s : State) (w : Word) : (s.setI w).st = s.st := rfl
@[simp] theorem State.setI_key (s : State) (w : Word) : (s.setI w).key = s.key := rfl
@[simp] theorem State.setI_disp (s : State) (w : Word) : (s.setI w).disp = s.disp := rfl
@[simp] theorem State.setI_dirty (s : State) (w : Word) : (s.setI w).dirty = s.dirty := rfl
@[simp] theorem State.setI_kw (s : State) (w : Word) : (s.setI w).kw = s.kw := rfl
@[simp] theorem State.setI_kwCand (s : State) (w : Word) : (s.setI w).kwCand = s.kwCand := rfl
@[simp] theorem State.setI_fault (s : State) (w : Word) : (s.setI w).fault = s.fault := rfl
@[simp] theorem State.setI_config (s : State) (w : Word) : (s.setI w).config = s.config := rfl
@[simp] theorem State.setI_inputs (s : State) (w : Word) : (s.setI w).inputs = s.inputs := rfl
@[simp] theorem State.setI_cycle (s : State) (w : Word) : (s.setI w).cycle = s.cycle := rfl
@[simp] theorem State.setI_renderOut (s : State) (w : Word) : (s.setI w).renderOut = s.renderOut := rfl
@[simp] theorem State.setI_audioOut (s : State) (w : Word) : (s.setI w).audioOut = s.audioOut := rfl
@[simp] theorem State.setI_draws (s : State) (w : Word) : (s.setI w).draws = s.draws := rfl

/-! ### `setDt` -/

@[simp] theorem State.setDt_mem (s : State) (b : Byte) : (s.setDt b).mem = s.mem := rfl
@[simp] theorem State.setDt_v (s : State) (b : Byte) : (s.setDt b).v = s.v := rfl
@[simp] theorem State.setDt_i (s : State) (b : Byte) : (s.setDt b).i = s.i := rfl
@[simp] theorem State.setDt_pc (s : State) (b : Byte) : (s.setDt b).pc = s.pc := rfl
@[simp] theorem State.setDt_sp (s : State) (b : Byte) : (s.setDt b).sp = s.sp := rfl
@[simp] theorem State.setDt_stack (s : State) (b : Byte) : (s.setDt b).stack = s.stack := rfl
@[simp] theorem State.setDt_dt (s : State) (b : Byte) : (s.setDt b).dt = b := rfl
@[simp] theorem State.setDt_st (s : State) (b : Byte) : (s.setDt b).st = s.st := rfl
@[simp] theorem State.setDt_key (s : State) (b : Byte) : (s.setDt b).key = s.key := rfl
@[simp] theorem State.setDt_disp (s : State) (b : Byte) : (s.setDt b).disp = s.disp := rfl
@[simp] theorem State.setDt_dirty (s : State) (b : Byte) : (s.setDt b).dirty = s.dirty := rfl
@[simp] theorem State.setDt_kw (s : State) (b : Byte) : (s.setDt b).kw = s.kw := rfl
@[simp] theorem State.setDt_kwCand (s : State) (b : Byte) : (s.setDt b).kwCand = s.kwCand := rfl
@[simp] theorem State.setDt_fault (s : State) (b : Byte) : (s.setDt b).fault = s.fault := rfl
@[simp] theorem State.setDt_config (s : State) (b : Byte) : (s.setDt b).config = s.config := rfl
@[simp] theorem State.setDt_inputs (s : State) (b : Byte) : (s.setDt b).inputs = s.inputs := rfl
@[simp] theorem State.setDt_cycle (s : State) (b : Byte) : (s.setDt b).cycle = s.cycle := rfl
@[simp] theorem State.setDt_renderOut (s : State) (b : Byte) : (s.setDt b).renderOut = s.renderOut := rfl
@[simp] theorem State.setDt_audioOut (s : State) (b : Byte) : (s.setDt b).audioOut = s.audioOut := rfl
@[simp] theorem State.setDt_draws (s : State) (b : Byte) : (s.setDt b).draws = s.draws := rfl

/-! ### `setSt` -/

@[simp] theorem State.setSt_mem (s : State) (b : Byte) : (s.setSt b).mem = s.mem := rfl
@[simp] theorem State.setSt_v (s : State) (b : Byte) : (s.setSt b).v = s.v := rfl
@[simp] theorem State.setSt_i (s : State) (b : Byte) : (s.setSt b).i = s.i := rfl
@[simp] theorem State.setSt_pc (s : State) (b : Byte) : (s.setSt b).pc = s.pc := rfl
@[simp] theorem State.setSt_sp (s : State) (b : Byte) : (s.setSt b).sp = s.sp := rfl
@[simp] theorem State.setSt_stack (s : State) (b : Byte) : (s.setSt b).stack = s.stack := rfl
@[simp] theorem State.setSt_dt (s : State) (b : Byte) : (s.setSt b).dt = s.dt := rfl
@[simp] theorem State.setSt_st (s : State) (b : Byte) : (s.setSt b).st = b := rfl
@[simp] theorem State.setSt_key (s : State) (b : Byte) : (s.setSt b).key = s.key := rfl
@[simp] theorem State.setSt_disp (s : State) (b : Byte) : (s.setSt b).disp = s.disp := rfl
@[simp] theorem State.setSt_dirty (s : State) (b : Byte) : (s.setSt b).dirty = s.dirty := rfl
@[simp] theorem State.setSt_kw (s : State) (b : Byte) : (s.setSt b).kw = s.kw := rfl
@[simp] theorem State.setSt_kwCand (s : State) (b : Byte) : (s.setSt b).kwCand = s.kwCand := rfl
@[simp] theorem State.setSt_fault (s : State) (b : Byte) : (s.setSt b).fault = s.fault := rfl
@[simp] theorem State.setSt_config (s : State) (b : Byte) : (s.setSt b).config = s.config := rfl
@[simp] theorem State.setSt_inputs (s : State) (b : Byte) : (s.setSt b).inputs = s.inputs := rfl
@[simp] theorem State.setSt_cycle (s : State) (b : Byte) : (s.setSt b).cycle = s.cycle := rfl
@[simp] theorem State.setSt_renderOut (s : State) (b : Byte) : (s.setSt b).renderOut = s.renderOut := rfl
@[simp] theorem State.setSt_audioOut (s : State) (b : Byte) : (s.setSt b).audioOut = s.audioOut := rfl
@[simp] theorem State.setSt_draws (s : State) (b : Byte) : (s.setSt b).draws = s.draws := rfl

/-! ### `writeByte` -/

@[simp] theorem State.writeByte_mem (s : State) (a : Word) (b : Byte) : (s.writeByte a b).mem = s.mem.write (memIndex a) b := rfl
@[simp] theorem State.writeByte_v (s : State) (a : Word) (b : Byte) : (s.writeByte a b).v = s.v := rfl
@[simp] theorem State.writeByte_i (s : State) (a : Word) (b : Byte) : (s.writeByte a b).i = s.i := rfl
@[simp] theorem State.writeByte_pc (s : State) (a : Word) (b : Byte) : (s.writeByte a b).pc = s.pc := rfl
@[simp] theorem State.writeByte_sp (s : State) (a : Word) (b : Byte) : (s.writeByte a b).sp = s.sp := rfl
@[simp] theorem State.writeByte_stack (s : State) (a : Word) (b : Byte) : (s.writeByte a b).stack = s.stack := rfl
@[simp] theorem State.writeByte_dt (s : State) (a : Word) (b : Byte) : (s.writeByte a b).dt = s.dt := rfl
@[simp] theorem State.writeByte_st (s : State) (a : Word) (b : Byte) : (s.writeByte a b).st = s.st := rfl
@[simp] theorem State.writeByte_key (s : State) (a : Word) (b : Byte) : (s.writeByte a b).key = s.key := rfl
@[simp] theorem State.writeByte_disp (s : State) (a : Word) (b : Byte) : (s.writeByte a b).disp = s.disp := rfl
@[simp] theorem State.writeByte_dirty (s : State) (a : Word) (b : Byte) : (s.writeByte a b).dirty = s.dirty := rfl
@[simp] theorem State.writeByte_kw (s : State) (a : Word) (b : Byte) : (s.writeByte a b).kw = s.kw := rfl
@[simp] theorem State.writeByte_kwCand (s : State) (a : Word) (b : Byte) : (s.writeByte a b).kwCand = s.kwCand := rfl
@[simp] theorem State.writeByte_fault (s : State) (a : Word) (b : Byte) : (s.writeByte a b).fault = s.fault := rfl
@[simp] theorem State.writeByte_config (s : State) (a : Word) (b : Byte) : (s.writeByte a b).config = s.config := rfl
@[simp] theorem State.writeByte_inputs (s : State) (a : Word) (b : Byte) : (s.writeByte a b).inputs = s.inputs := rfl
@[simp] theorem State.writeByte_cycle (s : State) (a : Word) (b : Byte) : (s.writeByte a b).cycle = s.cycle := rfl
@[simp] theorem State.writeByte_renderOut (s : State) (a : Word) (b : Byte) : (s.writeByte a b).renderOut = s.renderOut := rfl
@[simp] theorem State.writeByte_audioOut (s : State) (a : Word) (b : Byte) : (s.writeByte a b).audioOut = s.audioOut := rfl
@[simp] theorem State.writeByte_draws (s : State) (a : Word) (b : Byte) : (s.writeByte a b).draws = s.draws := rfl

/-! ### `setPc` -/

@[simp] theorem State.setPc_mem (s : State) (w : Word) : (s.setPc w).mem = s.mem := rfl
@[simp] theorem State.setPc_v (s : State) (w : Word) : (s.setPc w).v = s.v := rfl
@[simp] theorem State.setPc_i (s : State) (w : Word) : (s.setPc w).i = s.i := rfl
@[simp] theorem State.setPc_pc (s : State) (w : Word) : (s.setPc w).pc = w := rfl
@[simp] theorem State.setPc_sp (s : State) (w : Word) : (s.setPc w).sp = s.sp := rfl
@[simp] theorem State.setPc_stack (s : State) (w : Word) : (s.setPc w).stack = s.stack := rfl
@[simp] theorem State.setPc_dt (s : State) (w : Word) : (s.setPc w).dt = s.dt := rfl
@[simp] theorem State.setPc_st (s : State) (w : Word) : (s.setPc w).st = s.st := rfl
@[simp] theorem State.setPc_key (s : State) (w : Word) : (s.setPc w).key = s.key := rfl
@[simp] theorem State.setPc_disp (s : State) (w : Word) : (s.setPc w).disp = s.disp := rfl
@[simp] theorem State.setPc_dirty (s : State) (w : Word) : (s.setPc w).dirty = s.dirty := rfl
@[simp] theorem State.setPc_kw (s : State) (w : Word) : (s.setPc w).kw = s.kw := rfl
@[simp] theorem State.setPc_kwCand (s : State) (w : Word) : (s.setPc w).kwCand = s.kwCand := rfl
@[simp] theorem State.setPc_fault (s : State) (w : Word) : (s.setPc w).fault = s.fault := rfl
@[simp] theorem State.setPc_config (s : State) (w : Word) : (s.setPc w).config = s.config := rfl
@[simp] theorem State.setPc_inputs (s : State) (w : Word) : (s.setPc w).inputs = s.inputs := rfl
@[simp] theorem State.setPc_cycle (s : State) (w : Word) : (s.setPc w).cycle = s.cycle := rfl
@[simp] theorem State.setPc_renderOut (s : State) (w : Word) : (s.setPc w).renderOut = s.renderOut := rfl
@[simp] theorem State.setPc_audioOut (s : State) (w : Word) : (s.setPc w).audioOut = s.audioOut := rfl
@[simp] theorem State.setPc_draws (s : State) (w : Word) : (s.setPc w).draws = s.draws := rfl

/-! ### `advance` -/

@[simp] theorem State.advance_mem (s : State) : (s.advance).mem = s.mem := rfl
@[simp] theorem State.advance_v (s : State) : (s.advance).v = s.v := rfl
@[simp] theorem State.advance_i (s : State) : (s.advance).i = s.i := rfl
@[simp] theorem State.advance_pc (s : State) : (s.advance).pc = s.pc + 2 := rfl
@[simp] theorem State.advance_sp (s : State) : (s.advance).sp = s.sp := rfl
@[simp] theorem State.advance_stack (s : State) : (s.advance).stack = s.stack := rfl
@[simp] theorem State.advance_dt (s : State) : (s.advance).dt = s.dt := rfl
@[simp] theorem State.advance_st (s : State) : (s.advance).st = s.st := rfl
@[simp] theorem State.advance_key (s : State) : (s.advance).key = s.key := rfl
@[simp] theorem State.advance_disp (s : State) : (s.advance).disp = s.disp := rfl
@[simp] theorem State.advance_dirty (s : State) : (s.advance).dirty = s.dirty := rfl
@[simp] theorem State.advance_kw (s : State) : (s.advance).kw = s.kw := rfl
@[simp] theorem State.advance_kwCand (s : State) : (s.advance).kwCand = s.kwCand := rfl
@[simp] theorem State.advance_fault (s : State) : (s.advance).fault = s.fault := rfl
@[simp] theorem State.advance_config (s : State) : (s.advance).config = s.config := rfl
@[simp] theorem State.advance_inputs (s : State) : (s.advance).inputs = s.inputs := rfl
@[simp] theorem State.advance_cycle (s : State) : (s.advance).cycle = s.cycle := rfl
@[simp] theorem State.advance_renderOut (s : State) : (s.advance).renderOut = s.renderOut := rfl
@[simp] theorem State.advance_audioOut (s : State) : (s.advance).audioOut = s.audioOut := rfl
@[simp] theorem State.advance_draws (s : State) : (s.advance).draws = s.draws := rfl

/-! ### `retarget` -/

@[simp] theorem State.retarget_mem (s : State) : (s.retarget).mem = s.mem := rfl
@[simp] theorem State.retarget_v (s : State) : (s.retarget).v = s.v := rfl
@[simp] theorem State.retarget_i (s : State) : (s.retarget).i = s.i := rfl
@[simp] theorem State.retarget_pc (s : State) : (s.retarget).pc = s.pc - 2 := rfl
@[simp] theorem State.retarget_sp (s : State) : (s.retarget).sp = s.sp := rfl
@[simp] theorem State.retarget_stack (s : State) : (s.retarget).stack = s.stack := rfl
@[simp] theorem State.retarget_dt (s : State) : (s.retarget).dt = s.dt := rfl
@[simp] theorem State.retarget_st (s : State) : (s.retarget).st = s.st := rfl
@[simp] theorem State.retarget_key (s : State) : (s.retarget).key = s.key := rfl
@[simp] theorem State.retarget_disp (s : State) : (s.retarget).disp = s.disp := rfl
@[simp] theorem State.retarget_dirty (s : State) : (s.retarget).dirty = s.dirty := rfl
@[simp] theorem State.retarget_kw (s : State) : (s.retarget).kw = s.kw := rfl
@[simp] theorem State.retarget_kwCand (s : State) : (s.retarget).kwCand = s.kwCand := rfl
@[simp] theorem State.retarget_fault (s : State) : (s.retarget).fault = s.fault := rfl
@[simp] theorem State.retarget_config (s : State) : (s.retarget).config = s.config := rfl
@[simp] theorem State.retarget_inputs (s : State) : (s.retarget).inputs = s.inputs := rfl
@[simp] theorem State.retarget_cycle (s : State) : (s.retarget).cycle = s.cycle := rfl
@[simp] theorem State.retarget_renderOut (s : State) : (s.retarget).renderOut = s.renderOut := rfl
@[simp] theorem State.retarget_audioOut (s : State) : (s.retarget).audioOut = s.audioOut := rfl
@[simp] theorem State.retarget_draws (s : State) : (s.retarget).draws = s.draws := rfl

/-! ### `raiseFault` -/

@[simp] theorem State.raiseFault_mem (s : State) (c : Fault) : (s.raiseFault c).mem = s.mem := rfl
@[simp] theorem State.raiseFault_v (s : State) (c : Fault) : (s.raiseFault c).v = s.v := rfl
@[simp] theorem State.raiseFault_i (s : State) (c : Fault) : (s.raiseFault c).i = s.i := rfl
@[simp] theorem State.raiseFault_pc (s : State) (c : Fault) : (s.raiseFault c).pc = s.pc - 2 := rfl
@[simp] theorem State.raiseFault_sp (s : State) (c : Fault) : (s.raiseFault c).sp = s.sp := rfl
@[simp] theorem State.raiseFault_stack (s : State) (c : Fault) : (s.raiseFault c).stack = s.stack := rfl
@[simp] theorem State.raiseFault_dt (s : State) (c : Fault) : (s.raiseFault c).dt = s.dt := rfl
@[simp] theorem State.raiseFault_st (s : State) (c : Fault) : (s.raiseFault c).st = s.st := rfl
@[simp] theorem State.raiseFault_key (s : State) (c : Fault) : (s.raiseFault c).key = s.key := rfl
@[simp] theorem State.raiseFault_disp (s : State) (c : Fault) : (s.raiseFault c).disp = s.disp := rfl
@[simp] theorem State.raiseFault_dirty (s : State) (c : Fault) : (s.raiseFault c).dirty = s.dirty := rfl
@[simp] theorem State.raiseFault_kw (s : State) (c : Fault) : (s.raiseFault c).kw = s.kw := rfl
@[simp] theorem State.raiseFault_kwCand (s : State) (c : Fault) : (s.raiseFault c).kwCand = s.kwCand := rfl
@[simp] theorem State.raiseFault_fault (s : State) (c : Fault) : (s.raiseFault c).fault = some c := rfl
@[simp] theorem State.raiseFault_config (s : State) (c : Fault) : (s.raiseFault c).config = s.config := rfl
@[simp] theorem State.raiseFault_inputs (s : State) (c : Fault) : (s.raiseFault c).inputs = s.inputs := rfl
@[simp] theorem State.raiseFault_cycle (s : State) (c : Fault) : (s.raiseFault c).cycle = s.cycle := rfl
@[simp] theorem State.raiseFault_renderOut (s : State) (c : Fault) : (s.raiseFault c).renderOut = s.renderOut := rfl
@[simp] theorem State.raiseFault_audioOut (s : State) (c : Fault) : (s.raiseFault c).audioOut = s.audioOut := rfl
@[simp] theorem State.raiseFault_draws (s : State) (c : Fault) : (s.raiseFault c).draws = s.draws := rfl

/-! ### `setDisplay` -/

@[simp] theorem State.setDisplay_mem (s : State) (d : Display) : (s.setDisplay d).mem = s.mem := rfl
@[simp] theorem State.setDisplay_v (s : State) (d : Display) : (s.setDisplay d).v = s.v := rfl
@[simp] theorem State.setDisplay_i (s : State) (d : Display) : (s.setDisplay d).i = s.i := rfl
@[simp] theorem State.setDisplay_pc (s : State) (d : Display) : (s.setDisplay d).pc = s.pc := rfl
@[simp] theorem State.setDisplay_sp (s : State) (d : Display) : (s.setDisplay d).sp = s.sp := rfl
@[simp] theorem State.setDisplay_stack (s : State) (d : Display) : (s.setDisplay d).stack = s.stack := rfl
@[simp] theorem State.setDisplay_dt (s : State) (d : Display) : (s.setDisplay d).dt = s.dt := rfl
@[simp] theorem State.setDisplay_st (s : State) (d : Display) : (s.setDisplay d).st = s.st := rfl
@[simp] theorem State.setDisplay_key (s : State) (d : Display) : (s.setDisplay d).key = s.key := rfl
@[simp] theorem State.setDisplay_disp (s : State) (d : Display) : (s.setDisplay d).disp = d := rfl
@[simp] theorem State.setDisplay_dirty (s : State) (d : Display) : (s.setDisplay d).dirty = true := rfl
@[simp] theorem State.setDisplay_kw (s : State) (d : Display) : (s.setDisplay d).kw = s.kw := rfl
@[simp] theorem State.setDisplay_kwCand (s : State) (d : Display) : (s.setDisplay d).kwCand = s.kwCand := rfl
@[simp] theorem State.setDisplay_fault (s : State) (d : Display) : (s.setDisplay d).fault = s.fault := rfl
@[simp] theorem State.setDisplay_config (s : State) (d : Display) : (s.setDisplay d).config = s.config := rfl
@[simp] theorem State.setDisplay_inputs (s : State) (d : Display) : (s.setDisplay d).inputs = s.inputs := rfl
@[simp] theorem State.setDisplay_cycle (s : State) (d : Display) : (s.setDisplay d).cycle = s.cycle := rfl
@[simp] theorem State.setDisplay_renderOut (s : State) (d : Display) : (s.setDisplay d).renderOut = s.renderOut := rfl
@[simp] theorem State.setDisplay_audioOut (s : State) (d : Display) : (s.setDisplay d).audioOut = s.audioOut := rfl
@[simp] theorem State.setDisplay_draws (s : State) (d : Display) : (s.setDisplay d).draws = s.draws := rfl

/-! ### `awaitRelease` -/

@[simp] theorem State.awaitRelease_mem (s : State) (k : Key) : (s.awaitRelease k).mem = s.mem := rfl
@[simp] theorem State.awaitRelease_v (s : State) (k : Key) : (s.awaitRelease k).v = s.v := rfl
@[simp] theorem State.awaitRelease_i (s : State) (k : Key) : (s.awaitRelease k).i = s.i := rfl
@[simp] theorem State.awaitRelease_pc (s : State) (k : Key) : (s.awaitRelease k).pc = s.pc := rfl
@[simp] theorem State.awaitRelease_sp (s : State) (k : Key) : (s.awaitRelease k).sp = s.sp := rfl
@[simp] theorem State.awaitRelease_stack (s : State) (k : Key) : (s.awaitRelease k).stack = s.stack := rfl
@[simp] theorem State.awaitRelease_dt (s : State) (k : Key) : (s.awaitRelease k).dt = s.dt := rfl
@[simp] theorem State.awaitRelease_st (s : State) (k : Key) : (s.awaitRelease k).st = s.st := rfl
@[simp] theorem State.awaitRelease_key (s : State) (k : Key) : (s.awaitRelease k).key = s.key := rfl
@[simp] theorem State.awaitRelease_disp (s : State) (k : Key) : (s.awaitRelease k).disp = s.disp := rfl
@[simp] theorem State.awaitRelease_dirty (s : State) (k : Key) : (s.awaitRelease k).dirty = s.dirty := rfl
@[simp] theorem State.awaitRelease_kw (s : State) (k : Key) : (s.awaitRelease k).kw = .awaitingRelease := rfl
@[simp] theorem State.awaitRelease_kwCand (s : State) (k : Key) : (s.awaitRelease k).kwCand = k := rfl
@[simp] theorem State.awaitRelease_fault (s : State) (k : Key) : (s.awaitRelease k).fault = s.fault := rfl
@[simp] theorem State.awaitRelease_config (s : State) (k : Key) : (s.awaitRelease k).config = s.config := rfl
@[simp] theorem State.awaitRelease_inputs (s : State) (k : Key) : (s.awaitRelease k).inputs = s.inputs := rfl
@[simp] theorem State.awaitRelease_cycle (s : State) (k : Key) : (s.awaitRelease k).cycle = s.cycle := rfl
@[simp] theorem State.awaitRelease_renderOut (s : State) (k : Key) : (s.awaitRelease k).renderOut = s.renderOut := rfl
@[simp] theorem State.awaitRelease_audioOut (s : State) (k : Key) : (s.awaitRelease k).audioOut = s.audioOut := rfl
@[simp] theorem State.awaitRelease_draws (s : State) (k : Key) : (s.awaitRelease k).draws = s.draws := rfl

/-! ### `stopWaiting` -/

@[simp] theorem State.stopWaiting_mem (s : State) : (s.stopWaiting).mem = s.mem := rfl
@[simp] theorem State.stopWaiting_v (s : State) : (s.stopWaiting).v = s.v := rfl
@[simp] theorem State.stopWaiting_i (s : State) : (s.stopWaiting).i = s.i := rfl
@[simp] theorem State.stopWaiting_pc (s : State) : (s.stopWaiting).pc = s.pc := rfl
@[simp] theorem State.stopWaiting_sp (s : State) : (s.stopWaiting).sp = s.sp := rfl
@[simp] theorem State.stopWaiting_stack (s : State) : (s.stopWaiting).stack = s.stack := rfl
@[simp] theorem State.stopWaiting_dt (s : State) : (s.stopWaiting).dt = s.dt := rfl
@[simp] theorem State.stopWaiting_st (s : State) : (s.stopWaiting).st = s.st := rfl
@[simp] theorem State.stopWaiting_key (s : State) : (s.stopWaiting).key = s.key := rfl
@[simp] theorem State.stopWaiting_disp (s : State) : (s.stopWaiting).disp = s.disp := rfl
@[simp] theorem State.stopWaiting_dirty (s : State) : (s.stopWaiting).dirty = s.dirty := rfl
@[simp] theorem State.stopWaiting_kw (s : State) : (s.stopWaiting).kw = .idle := rfl
@[simp] theorem State.stopWaiting_kwCand (s : State) : (s.stopWaiting).kwCand = s.kwCand := rfl
@[simp] theorem State.stopWaiting_fault (s : State) : (s.stopWaiting).fault = s.fault := rfl
@[simp] theorem State.stopWaiting_config (s : State) : (s.stopWaiting).config = s.config := rfl
@[simp] theorem State.stopWaiting_inputs (s : State) : (s.stopWaiting).inputs = s.inputs := rfl
@[simp] theorem State.stopWaiting_cycle (s : State) : (s.stopWaiting).cycle = s.cycle := rfl
@[simp] theorem State.stopWaiting_renderOut (s : State) : (s.stopWaiting).renderOut = s.renderOut := rfl
@[simp] theorem State.stopWaiting_audioOut (s : State) : (s.stopWaiting).audioOut = s.audioOut := rfl
@[simp] theorem State.stopWaiting_draws (s : State) : (s.stopWaiting).draws = s.draws := rfl

/-! ### `countDraw` -/

@[simp] theorem State.countDraw_mem (s : State) : (s.countDraw).mem = s.mem := rfl
@[simp] theorem State.countDraw_v (s : State) : (s.countDraw).v = s.v := rfl
@[simp] theorem State.countDraw_i (s : State) : (s.countDraw).i = s.i := rfl
@[simp] theorem State.countDraw_pc (s : State) : (s.countDraw).pc = s.pc := rfl
@[simp] theorem State.countDraw_sp (s : State) : (s.countDraw).sp = s.sp := rfl
@[simp] theorem State.countDraw_stack (s : State) : (s.countDraw).stack = s.stack := rfl
@[simp] theorem State.countDraw_dt (s : State) : (s.countDraw).dt = s.dt := rfl
@[simp] theorem State.countDraw_st (s : State) : (s.countDraw).st = s.st := rfl
@[simp] theorem State.countDraw_key (s : State) : (s.countDraw).key = s.key := rfl
@[simp] theorem State.countDraw_disp (s : State) : (s.countDraw).disp = s.disp := rfl
@[simp] theorem State.countDraw_dirty (s : State) : (s.countDraw).dirty = s.dirty := rfl
@[simp] theorem State.countDraw_kw (s : State) : (s.countDraw).kw = s.kw := rfl
@[simp] theorem State.countDraw_kwCand (s : State) : (s.countDraw).kwCand = s.kwCand := rfl
@[simp] theorem State.countDraw_fault (s : State) : (s.countDraw).fault = s.fault := rfl
@[simp] theorem State.countDraw_config (s : State) : (s.countDraw).config = s.config := rfl
@[simp] theorem State.countDraw_inputs (s : State) : (s.countDraw).inputs = s.inputs := rfl
@[simp] theorem State.countDraw_cycle (s : State) : (s.countDraw).cycle = s.cycle := rfl
@[simp] theorem State.countDraw_renderOut (s : State) : (s.countDraw).renderOut = s.renderOut := rfl
@[simp] theorem State.countDraw_audioOut (s : State) : (s.countDraw).audioOut = s.audioOut := rfl
@[simp] theorem State.countDraw_draws (s : State) : (s.countDraw).draws = s.draws + 1 := rfl

/-! ### `setFlag` -/

@[simp] theorem State.setFlag_mem (s : State) (f : Byte) : (s.setFlag f).mem = s.mem := rfl
@[simp] theorem State.setFlag_v (s : State) (f : Byte) : (s.setFlag f).v = s.v.set 15 f := rfl
@[simp] theorem State.setFlag_i (s : State) (f : Byte) : (s.setFlag f).i = s.i := rfl
@[simp] theorem State.setFlag_pc (s : State) (f : Byte) : (s.setFlag f).pc = s.pc := rfl
@[simp] theorem State.setFlag_sp (s : State) (f : Byte) : (s.setFlag f).sp = s.sp := rfl
@[simp] theorem State.setFlag_stack (s : State) (f : Byte) : (s.setFlag f).stack = s.stack := rfl
@[simp] theorem State.setFlag_dt (s : State) (f : Byte) : (s.setFlag f).dt = s.dt := rfl
@[simp] theorem State.setFlag_st (s : State) (f : Byte) : (s.setFlag f).st = s.st := rfl
@[simp] theorem State.setFlag_key (s : State) (f : Byte) : (s.setFlag f).key = s.key := rfl
@[simp] theorem State.setFlag_disp (s : State) (f : Byte) : (s.setFlag f).disp = s.disp := rfl
@[simp] theorem State.setFlag_dirty (s : State) (f : Byte) : (s.setFlag f).dirty = s.dirty := rfl
@[simp] theorem State.setFlag_kw (s : State) (f : Byte) : (s.setFlag f).kw = s.kw := rfl
@[simp] theorem State.setFlag_kwCand (s : State) (f : Byte) : (s.setFlag f).kwCand = s.kwCand := rfl
@[simp] theorem State.setFlag_fault (s : State) (f : Byte) : (s.setFlag f).fault = s.fault := rfl
@[simp] theorem State.setFlag_config (s : State) (f : Byte) : (s.setFlag f).config = s.config := rfl
@[simp] theorem State.setFlag_inputs (s : State) (f : Byte) : (s.setFlag f).inputs = s.inputs := rfl
@[simp] theorem State.setFlag_cycle (s : State) (f : Byte) : (s.setFlag f).cycle = s.cycle := rfl
@[simp] theorem State.setFlag_renderOut (s : State) (f : Byte) : (s.setFlag f).renderOut = s.renderOut := rfl
@[simp] theorem State.setFlag_audioOut (s : State) (f : Byte) : (s.setFlag f).audioOut = s.audioOut := rfl
@[simp] theorem State.setFlag_draws (s : State) (f : Byte) : (s.setFlag f).draws = s.draws := rfl

/-! ### `setRegThenFlag` -/

@[simp] theorem State.setRegThenFlag_mem (s : State) (x : Reg) (r f : Byte) : (s.setRegThenFlag x r f).mem = s.mem := rfl
@[simp] theorem State.setRegThenFlag_v (s : State) (x : Reg) (r f : Byte) : (s.setRegThenFlag x r f).v = (s.v.set x.val r).set 15 f := rfl
@[simp] theorem State.setRegThenFlag_i (s : State) (x : Reg) (r f : Byte) : (s.setRegThenFlag x r f).i = s.i := rfl
@[simp] theorem State.setRegThenFlag_pc (s : State) (x : Reg) (r f : Byte) : (s.setRegThenFlag x r f).pc = s.pc := rfl
@[simp] theorem State.setRegThenFlag_sp (s : State) (x : Reg) (r f : Byte) : (s.setRegThenFlag x r f).sp = s.sp := rfl
@[simp] theorem State.setRegThenFlag_stack (s : State) (x : Reg) (r f : Byte) : (s.setRegThenFlag x r f).stack = s.stack := rfl
@[simp] theorem State.setRegThenFlag_dt (s : State) (x : Reg) (r f : Byte) : (s.setRegThenFlag x r f).dt = s.dt := rfl
@[simp] theorem State.setRegThenFlag_st (s : State) (x : Reg) (r f : Byte) : (s.setRegThenFlag x r f).st = s.st := rfl
@[simp] theorem State.setRegThenFlag_key (s : State) (x : Reg) (r f : Byte) : (s.setRegThenFlag x r f).key = s.key := rfl
@[simp] theorem State.setRegThenFlag_disp (s : State) (x : Reg) (r f : Byte) : (s.setRegThenFlag x r f).disp = s.disp := rfl
@[simp] theorem State.setRegThenFlag_dirty (s : State) (x : Reg) (r f : Byte) : (s.setRegThenFlag x r f).dirty = s.dirty := rfl
@[simp] theorem State.setRegThenFlag_kw (s : State) (x : Reg) (r f : Byte) : (s.setRegThenFlag x r f).kw = s.kw := rfl
@[simp] theorem State.setRegThenFlag_kwCand (s : State) (x : Reg) (r f : Byte) : (s.setRegThenFlag x r f).kwCand = s.kwCand := rfl
@[simp] theorem State.setRegThenFlag_fault (s : State) (x : Reg) (r f : Byte) : (s.setRegThenFlag x r f).fault = s.fault := rfl
@[simp] theorem State.setRegThenFlag_config (s : State) (x : Reg) (r f : Byte) : (s.setRegThenFlag x r f).config = s.config := rfl
@[simp] theorem State.setRegThenFlag_inputs (s : State) (x : Reg) (r f : Byte) : (s.setRegThenFlag x r f).inputs = s.inputs := rfl
@[simp] theorem State.setRegThenFlag_cycle (s : State) (x : Reg) (r f : Byte) : (s.setRegThenFlag x r f).cycle = s.cycle := rfl
@[simp] theorem State.setRegThenFlag_renderOut (s : State) (x : Reg) (r f : Byte) : (s.setRegThenFlag x r f).renderOut = s.renderOut := rfl
@[simp] theorem State.setRegThenFlag_audioOut (s : State) (x : Reg) (r f : Byte) : (s.setRegThenFlag x r f).audioOut = s.audioOut := rfl
@[simp] theorem State.setRegThenFlag_draws (s : State) (x : Reg) (r f : Byte) : (s.setRegThenFlag x r f).draws = s.draws := rfl

/-! ### `showCanvas` -/

@[simp] theorem State.showCanvas_mem (s : State) (c : Canvas) : (s.showCanvas c).mem = s.mem := rfl
@[simp] theorem State.showCanvas_v (s : State) (c : Canvas) : (s.showCanvas c).v = s.v.set 15 (flagByte c.collided) := rfl
@[simp] theorem State.showCanvas_i (s : State) (c : Canvas) : (s.showCanvas c).i = s.i := rfl
@[simp] theorem State.showCanvas_pc (s : State) (c : Canvas) : (s.showCanvas c).pc = s.pc := rfl
@[simp] theorem State.showCanvas_sp (s : State) (c : Canvas) : (s.showCanvas c).sp = s.sp := rfl
@[simp] theorem State.showCanvas_stack (s : State) (c : Canvas) : (s.showCanvas c).stack = s.stack := rfl
@[simp] theorem State.showCanvas_dt (s : State) (c : Canvas) : (s.showCanvas c).dt = s.dt := rfl
@[simp] theorem State.showCanvas_st (s : State) (c : Canvas) : (s.showCanvas c).st = s.st := rfl
@[simp] theorem State.showCanvas_key (s : State) (c : Canvas) : (s.showCanvas c).key = s.key := rfl
@[simp] theorem State.showCanvas_disp (s : State) (c : Canvas) : (s.showCanvas c).disp = c.disp := rfl
@[simp] theorem State.showCanvas_dirty (s : State) (c : Canvas) : (s.showCanvas c).dirty = true := rfl
@[simp] theorem State.showCanvas_kw (s : State) (c : Canvas) : (s.showCanvas c).kw = s.kw := rfl
@[simp] theorem State.showCanvas_kwCand (s : State) (c : Canvas) : (s.showCanvas c).kwCand = s.kwCand := rfl
@[simp] theorem State.showCanvas_fault (s : State) (c : Canvas) : (s.showCanvas c).fault = s.fault := rfl
@[simp] theorem State.showCanvas_config (s : State) (c : Canvas) : (s.showCanvas c).config = s.config := rfl
@[simp] theorem State.showCanvas_inputs (s : State) (c : Canvas) : (s.showCanvas c).inputs = s.inputs := rfl
@[simp] theorem State.showCanvas_cycle (s : State) (c : Canvas) : (s.showCanvas c).cycle = s.cycle := rfl
@[simp] theorem State.showCanvas_renderOut (s : State) (c : Canvas) : (s.showCanvas c).renderOut = s.renderOut := rfl
@[simp] theorem State.showCanvas_audioOut (s : State) (c : Canvas) : (s.showCanvas c).audioOut = s.audioOut := rfl
@[simp] theorem State.showCanvas_draws (s : State) (c : Canvas) : (s.showCanvas c).draws = s.draws := rfl

/-! ### `tickTimers` -/

@[simp] theorem State.tickTimers_mem (s : State) : (s.tickTimers).mem = s.mem := rfl
@[simp] theorem State.tickTimers_v (s : State) : (s.tickTimers).v = s.v := rfl
@[simp] theorem State.tickTimers_i (s : State) : (s.tickTimers).i = s.i := rfl
@[simp] theorem State.tickTimers_pc (s : State) : (s.tickTimers).pc = s.pc := rfl
@[simp] theorem State.tickTimers_sp (s : State) : (s.tickTimers).sp = s.sp := rfl
@[simp] theorem State.tickTimers_stack (s : State) : (s.tickTimers).stack = s.stack := rfl
@[simp] theorem State.tickTimers_dt (s : State) : (s.tickTimers).dt = countDown s.dt := rfl
@[simp] theorem State.tickTimers_st (s : State) : (s.tickTimers).st = countDown s.st := rfl
@[simp] theorem State.tickTimers_key (s : State) : (s.tickTimers).key = s.key := rfl
@[simp] theorem State.tickTimers_disp (s : State) : (s.tickTimers).disp = s.disp := rfl
@[simp] theorem State.tickTimers_dirty (s : State) : (s.tickTimers).dirty = s.dirty := rfl
@[simp] theorem State.tickTimers_kw (s : State) : (s.tickTimers).kw = s.kw := rfl
@[simp] theorem State.tickTimers_kwCand (s : State) : (s.tickTimers).kwCand = s.kwCand := rfl
@[simp] theorem State.tickTimers_fault (s : State) : (s.tickTimers).fault = s.fault := rfl
@[simp] theorem State.tickTimers_config (s : State) : (s.tickTimers).config = s.config := rfl
@[simp] theorem State.tickTimers_inputs (s : State) : (s.tickTimers).inputs = s.inputs := rfl
@[simp] theorem State.tickTimers_cycle (s : State) : (s.tickTimers).cycle = s.cycle := rfl
@[simp] theorem State.tickTimers_renderOut (s : State) : (s.tickTimers).renderOut = s.renderOut := rfl
@[simp] theorem State.tickTimers_audioOut (s : State) : (s.tickTimers).audioOut = s.audioOut := rfl
@[simp] theorem State.tickTimers_draws (s : State) : (s.tickTimers).draws = s.draws := rfl

/-! ### `signalAudio` -/

@[simp] theorem State.signalAudio_mem (s : State) : (s.signalAudio).mem = s.mem := rfl
@[simp] theorem State.signalAudio_v (s : State) : (s.signalAudio).v = s.v := rfl
@[simp] theorem State.signalAudio_i (s : State) : (s.signalAudio).i = s.i := rfl
@[simp] theorem State.signalAudio_pc (s : State) : (s.signalAudio).pc = s.pc := rfl
@[simp] theorem State.signalAudio_sp (s : State) : (s.signalAudio).sp = s.sp := rfl
@[simp] theorem State.signalAudio_stack (s : State) : (s.signalAudio).stack = s.stack := rfl
@[simp] theorem State.signalAudio_dt (s : State) : (s.signalAudio).dt = s.dt := rfl
@[simp] theorem State.signalAudio_st (s : State) : (s.signalAudio).st = s.st := rfl
@[simp] theorem State.signalAudio_key (s : State) : (s.signalAudio).key = s.key := rfl
@[simp] theorem State.signalAudio_disp (s : State) : (s.signalAudio).disp = s.disp := rfl
@[simp] theorem State.signalAudio_dirty (s : State) : (s.signalAudio).dirty = s.dirty := rfl
@[simp] theorem State.signalAudio_kw (s : State) : (s.signalAudio).kw = s.kw := rfl
@[simp] theorem State.signalAudio_kwCand (s : State) : (s.signalAudio).kwCand = s.kwCand := rfl
@[simp] theorem State.signalAudio_fault (s : State) : (s.signalAudio).fault = s.fault := rfl
@[simp] theorem State.signalAudio_config (s : State) : (s.signalAudio).config = s.config := rfl
@[simp] theorem State.signalAudio_inputs (s : State) : (s.signalAudio).inputs = s.inputs := rfl
@[simp] theorem State.signalAudio_cycle (s : State) : (s.signalAudio).cycle = s.cycle := rfl
@[simp] theorem State.signalAudio_renderOut (s : State) : (s.signalAudio).renderOut = s.renderOut := rfl
@[simp] theorem State.signalAudio_audioOut (s : State) : (s.signalAudio).audioOut = (s.st != 0) := rfl
@[simp] theorem State.signalAudio_draws (s : State) : (s.signalAudio).draws = s.draws := rfl

/-! ### `skipIf`: the fields it never changes -/

@[simp] theorem State.skipIf_mem (s : State) (c : Bool) : (s.skipIf c).mem = s.mem := by cases c <;> rfl
@[simp] theorem State.skipIf_v (s : State) (c : Bool) : (s.skipIf c).v = s.v := by cases c <;> rfl
@[simp] theorem State.skipIf_i (s : State) (c : Bool) : (s.skipIf c).i = s.i := by cases c <;> rfl
@[simp] theorem State.skipIf_sp (s : State) (c : Bool) : (s.skipIf c).sp = s.sp := by cases c <;> rfl
@[simp] theorem State.skipIf_stack (s : State) (c : Bool) : (s.skipIf c).stack = s.stack := by cases c <;> rfl
@[simp] theorem State.skipIf_dt (s : State) (c : Bool) : (s.skipIf c).dt = s.dt := by cases c <;> rfl
@[simp] theorem State.skipIf_st (s : State) (c : Bool) : (s.skipIf c).st = s.st := by cases c <;> rfl
@[simp] theorem State.skipIf_key (s : State) (c : Bool) : (s.skipIf c).key = s.key := by cases c <;> rfl
@[simp] theorem State.skipIf_disp (s : State) (c : Bool) : (s.skipIf c).disp = s.disp := by cases c <;> rfl
@[simp] theorem State.skipIf_dirty (s : State) (c : Bool) : (s.skipIf c).dirty = s.dirty := by cases c <;> rfl
@[simp] theorem State.skipIf_kw (s : State) (c : Bool) : (s.skipIf c).kw = s.kw := by cases c <;> rfl
@[simp] theorem State.skipIf_kwCand (s : State) (c : Bool) : (s.skipIf c).kwCand = s.kwCand := by cases c <;> rfl
@[simp] theorem State.skipIf_fault (s : State) (c : Bool) : (s.skipIf c).fault = s.fault := by cases c <;> rfl
@[simp] theorem State.skipIf_config (s : State) (c : Bool) : (s.skipIf c).config = s.config := by cases c <;> rfl
@[simp] theorem State.skipIf_inputs (s : State) (c : Bool) : (s.skipIf c).inputs = s.inputs := by cases c <;> rfl
@[simp] theorem State.skipIf_cycle (s : State) (c : Bool) : (s.skipIf c).cycle = s.cycle := by cases c <;> rfl
@[simp] theorem State.skipIf_renderOut (s : State) (c : Bool) : (s.skipIf c).renderOut = s.renderOut := by cases c <;> rfl
@[simp] theorem State.skipIf_audioOut (s : State) (c : Bool) : (s.skipIf c).audioOut = s.audioOut := by cases c <;> rfl
@[simp] theorem State.skipIf_draws (s : State) (c : Bool) : (s.skipIf c).draws = s.draws := by cases c <;> rfl

/-! ### `setLogicResult`: the fields it never changes -/

@[simp] theorem State.setLogicResult_mem (s : State) (x : Reg) (r : Byte) : (s.setLogicResult x r).mem = s.mem := by unfold State.setLogicResult; split <;> rfl
@[simp] theorem State.setLogicResult_i (s : State) (x : Reg) (r : Byte) : (s.setLogicResult x r).i = s.i := by unfold State.setLogicResult; split <;> rfl
@[simp] theorem State.setLogicResult_pc (s : State) (x : Reg) (r : Byte) : (s.setLogicResult x r).pc = s.pc := by unfold State.setLogicResult; split <;> rfl
@[simp] theorem State.setLogicResult_sp (s : State) (x : Reg) (r : Byte) : (s.setLogicResult x r).sp = s.sp := by unfold State.setLogicResult; split <;> rfl
@[simp] theorem State.setLogicResult_stack (s : State) (x : Reg) (r : Byte) : (s.setLogicResult x r).stack = s.stack := by unfold State.setLogicResult; split <;> rfl
@[simp] theorem State.setLogicResult_dt (s : State) (x : Reg) (r : Byte) : (s.setLogicResult x r).dt = s.dt := by unfold State.setLogicResult; split <;> rfl
@[simp] theorem State.setLogicResult_st (s : State) (x : Reg) (r : Byte) : (s.setLogicResult x r).st = s.st := by unfold State.setLogicResult; split <;> rfl
@[simp] theorem State.setLogicResult_key (s : State) (x : Reg) (r : Byte) : (s.setLogicResult x r).key = s.key := by unfold State.setLogicResult; split <;> rfl
@[simp] theorem State.setLogicResult_disp (s : State) (x : Reg) (r : Byte) : (s.setLogicResult x r).disp = s.disp := by unfold State.setLogicResult; split <;> rfl
@[simp] theorem State.setLogicResult_dirty (s : State) (x : Reg) (r : Byte) : (s.setLogicResult x r).dirty = s.dirty := by unfold State.setLogicResult; split <;> rfl
@[simp] theorem State.setLogicResult_kw (s : State) (x : Reg) (r : Byte) : (s.setLogicResult x r).kw = s.kw := by unfold State.setLogicResult; split <;> rfl
@[simp] theorem State.setLogicResult_kwCand (s : State) (x : Reg) (r : Byte) : (s.setLogicResult x r).kwCand = s.kwCand := by unfold State.setLogicResult; split <;> rfl
@[simp] theorem State.setLogicResult_fault (s : State) (x : Reg) (r : Byte) : (s.setLogicResult x r).fault = s.fault := by unfold State.setLogicResult; split <;> rfl
@[simp] theorem State.setLogicResult_config (s : State) (x : Reg) (r : Byte) : (s.setLogicResult x r).config = s.config := by unfold State.setLogicResult; split <;> rfl
@[simp] theorem State.setLogicResult_inputs (s : State) (x : Reg) (r : Byte) : (s.setLogicResult x r).inputs = s.inputs := by unfold State.setLogicResult; split <;> rfl
@[simp] theorem State.setLogicResult_cycle (s : State) (x : Reg) (r : Byte) : (s.setLogicResult x r).cycle = s.cycle := by unfold State.setLogicResult; split <;> rfl
@[simp] theorem State.setLogicResult_renderOut (s : State) (x : Reg) (r : Byte) : (s.setLogicResult x r).renderOut = s.renderOut := by unfold State.setLogicResult; split <;> rfl
@[simp] theorem State.setLogicResult_audioOut (s : State) (x : Reg) (r : Byte) : (s.setLogicResult x r).audioOut = s.audioOut := by unfold State.setLogicResult; split <;> rfl
@[simp] theorem State.setLogicResult_draws (s : State) (x : Reg) (r : Byte) : (s.setLogicResult x r).draws = s.draws := by unfold State.setLogicResult; split <;> rfl

/-! ### `advanceIndexIf`: the fields it never changes -/

@[simp] theorem State.advanceIndexIf_mem (s : State) (q : Bool) (x : Reg) : (s.advanceIndexIf q x).mem = s.mem := by cases q <;> rfl
@[simp] theorem State.advanceIndexIf_v (s : State) (q : Bool) (x : Reg) : (s.advanceIndexIf q x).v = s.v := by cases q <;> rfl
@[simp] theorem State.advanceIndexIf_pc (s : State) (q : Bool) (x : Reg) : (s.advanceIndexIf q x).pc = s.pc := by cases q <;> rfl
@[simp] theorem State.advanceIndexIf_sp (s : State) (q : Bool) (x : Reg) : (s.advanceIndexIf q x).sp = s.sp := by cases q <;> rfl
@[simp] theorem State.advanceIndexIf_stack (s : State) (q : Bool) (x : Reg) : (s.advanceIndexIf q x).stack = s.stack := by cases q <;> rfl
@[simp] theorem State.advanceIndexIf_dt (s : State) (q : Bool) (x : Reg) : (s.advanceIndexIf q x).dt = s.dt := by cases q <;> rfl
@[simp] theorem State.advanceIndexIf_st (s : State) (q : Bool) (x : Reg) : (s.advanceIndexIf q x).st = s.st := by cases q <;> rfl
@[simp] theorem State.advanceIndexIf_key (s : State) (q : Bool) (x : Reg) : (s.advanceIndexIf q x).key = s.key := by cases q <;> rfl
@[simp] theorem State.advanceIndexIf_disp (s : State) (q : Bool) (x : Reg) : (s.advanceIndexIf q x).disp = s.disp := by cases q <;> rfl
@[simp] theorem State.advanceIndexIf_dirty (s : State) (q : Bool) (x : Reg) : (s.advanceIndexIf q x).dirty = s.dirty := by cases q <;> rfl
@[simp] theorem State.advanceIndexIf_kw (s : State) (q : Bool) (x : Reg) : (s.advanceIndexIf q x).kw = s.kw := by cases q <;> rfl
@[simp] theorem State.advanceIndexIf_kwCand (s : State) (q : Bool) (x : Reg) : (s.advanceIndexIf q x).kwCand = s.kwCand := by cases q <;> rfl
@[simp] theorem State.advanceIndexIf_fault (s : State) (q : Bool) (x : Reg) : (s.advanceIndexIf q x).fault = s.fault := by cases q <;> rfl
@[simp] theorem State.advanceIndexIf_config (s : State) (q : Bool) (x : Reg) : (s.advanceIndexIf q x).config = s.config := by cases q <;> rfl
@[simp] theorem State.advanceIndexIf_inputs (s : State) (q : Bool) (x : Reg) : (s.advanceIndexIf q x).inputs = s.inputs := by cases q <;> rfl
@[simp] theorem State.advanceIndexIf_cycle (s : State) (q : Bool) (x : Reg) : (s.advanceIndexIf q x).cycle = s.cycle := by cases q <;> rfl
@[simp] theorem State.advanceIndexIf_renderOut (s : State) (q : Bool) (x : Reg) : (s.advanceIndexIf q x).renderOut = s.renderOut := by cases q <;> rfl
@[simp] theorem State.advanceIndexIf_audioOut (s : State) (q : Bool) (x : Reg) : (s.advanceIndexIf q x).audioOut = s.audioOut := by cases q <;> rfl
@[simp] theorem State.advanceIndexIf_draws (s : State) (q : Bool) (x : Reg) : (s.advanceIndexIf q x).draws = s.draws := by cases q <;> rfl

/-! ### `callTo`: the fields it never changes -/

@[simp] theorem State.callTo_mem (s : State) (w : Word) : (s.callTo w).mem = s.mem := by unfold State.callTo; split <;> rfl
@[simp] theorem State.callTo_v (s : State) (w : Word) : (s.callTo w).v = s.v := by unfold State.callTo; split <;> rfl
@[simp] theorem State.callTo_i (s : State) (w : Word) : (s.callTo w).i = s.i := by unfold State.callTo; split <;> rfl
@[simp] theorem State.callTo_dt (s : State) (w : Word) : (s.callTo w).dt = s.dt := by unfold State.callTo; split <;> rfl
@[simp] theorem State.callTo_st (s : State) (w : Word) : (s.callTo w).st = s.st := by unfold State.callTo; split <;> rfl
@[simp] theorem State.callTo_key (s : State) (w : Word) : (s.callTo w).key = s.key := by unfold State.callTo; split <;> rfl
@[simp] theorem State.callTo_disp (s : State) (w : Word) : (s.callTo w).disp = s.disp := by unfold State.callTo; split <;> rfl
@[simp] theorem State.callTo_dirty (s : State) (w : Word) : (s.callTo w).dirty = s.dirty := by unfold State.callTo; split <;> rfl
@[simp] theorem State.callTo_kw (s : State) (w : Word) : (s.callTo w).kw = s.kw := by unfold State.callTo; split <;> rfl
@[simp] theorem State.callTo_kwCand (s : State) (w : Word) : (s.callTo w).kwCand = s.kwCand := by unfold State.callTo; split <;> rfl
@[simp] theorem State.callTo_config (s : State) (w : Word) : (s.callTo w).config = s.config := by unfold State.callTo; split <;> rfl
@[simp] theorem State.callTo_inputs (s : State) (w : Word) : (s.callTo w).inputs = s.inputs := by unfold State.callTo; split <;> rfl
@[simp] theorem State.callTo_cycle (s : State) (w : Word) : (s.callTo w).cycle = s.cycle := by unfold State.callTo; split <;> rfl
@[simp] theorem State.callTo_renderOut (s : State) (w : Word) : (s.callTo w).renderOut = s.renderOut := by unfold State.callTo; split <;> rfl
@[simp] theorem State.callTo_audioOut (s : State) (w : Word) : (s.callTo w).audioOut = s.audioOut := by unfold State.callTo; split <;> rfl
@[simp] theorem State.callTo_draws (s : State) (w : Word) : (s.callTo w).draws = s.draws := by unfold State.callTo; split <;> rfl

/-! ### `returnFromCall`: the fields it never changes -/

@[simp] theorem State.returnFromCall_mem (s : State) : (s.returnFromCall).mem = s.mem := by unfold State.returnFromCall; split <;> rfl
@[simp] theorem State.returnFromCall_v (s : State) : (s.returnFromCall).v = s.v := by unfold State.returnFromCall; split <;> rfl
@[simp] theorem State.returnFromCall_i (s : State) : (s.returnFromCall).i = s.i := by unfold State.returnFromCall; split <;> rfl
@[simp] theorem State.returnFromCall_stack (s : State) : (s.returnFromCall).stack = s.stack := by unfold State.returnFromCall; split <;> rfl
@[simp] theorem State.returnFromCall_dt (s : State) : (s.returnFromCall).dt = s.dt := by unfold State.returnFromCall; split <;> rfl
@[simp] theorem State.returnFromCall_st (s : State) : (s.returnFromCall).st = s.st := by unfold State.returnFromCall; split <;> rfl
@[simp] theorem State.returnFromCall_key (s : State) : (s.returnFromCall).key = s.key := by unfold State.returnFromCall; split <;> rfl
@[simp] theorem State.returnFromCall_disp (s : State) : (s.returnFromCall).disp = s.disp := by unfold State.returnFromCall; split <;> rfl
@[simp] theorem State.returnFromCall_dirty (s : State) : (s.returnFromCall).dirty = s.dirty := by unfold State.returnFromCall; split <;> rfl
@[simp] theorem State.returnFromCall_kw (s : State) : (s.returnFromCall).kw = s.kw := by unfold State.returnFromCall; split <;> rfl
@[simp] theorem State.returnFromCall_kwCand (s : State) : (s.returnFromCall).kwCand = s.kwCand := by unfold State.returnFromCall; split <;> rfl
@[simp] theorem State.returnFromCall_config (s : State) : (s.returnFromCall).config = s.config := by unfold State.returnFromCall; split <;> rfl
@[simp] theorem State.returnFromCall_inputs (s : State) : (s.returnFromCall).inputs = s.inputs := by unfold State.returnFromCall; split <;> rfl
@[simp] theorem State.returnFromCall_cycle (s : State) : (s.returnFromCall).cycle = s.cycle := by unfold State.returnFromCall; split <;> rfl
@[simp] theorem State.returnFromCall_renderOut (s : State) : (s.returnFromCall).renderOut = s.renderOut := by unfold State.returnFromCall; split <;> rfl
@[simp] theorem State.returnFromCall_audioOut (s : State) : (s.returnFromCall).audioOut = s.audioOut := by unfold State.returnFromCall; split <;> rfl
@[simp] theorem State.returnFromCall_draws (s : State) : (s.returnFromCall).draws = s.draws := by unfold State.returnFromCall; split <;> rfl

/-! ### `scanKeys`: the fields it never changes -/

@[simp] theorem State.scanKeys_mem (s : State) : (s.scanKeys).mem = s.mem := by unfold State.scanKeys; split <;> rfl
@[simp] theorem State.scanKeys_v (s : State) : (s.scanKeys).v = s.v := by unfold State.scanKeys; split <;> rfl
@[simp] theorem State.scanKeys_i (s : State) : (s.scanKeys).i = s.i := by unfold State.scanKeys; split <;> rfl
@[simp] theorem State.scanKeys_pc (s : State) : (s.scanKeys).pc = s.pc := by unfold State.scanKeys; split <;> rfl
@[simp] theorem State.scanKeys_sp (s : State) : (s.scanKeys).sp = s.sp := by unfold State.scanKeys; split <;> rfl
@[simp] theorem State.scanKeys_stack (s : State) : (s.scanKeys).stack = s.stack := by unfold State.scanKeys; split <;> rfl
@[simp] theorem State.scanKeys_dt (s : State) : (s.scanKeys).dt = s.dt := by unfold State.scanKeys; split <;> rfl
@[simp] theorem State.scanKeys_st (s : State) : (s.scanKeys).st = s.st := by unfold State.scanKeys; split <;> rfl
@[simp] theorem State.scanKeys_key (s : State) : (s.scanKeys).key = s.key := by unfold State.scanKeys; split <;> rfl
@[simp] theorem State.scanKeys_disp (s : State) : (s.scanKeys).disp = s.disp := by unfold State.scanKeys; split <;> rfl
@[simp] theorem State.scanKeys_dirty (s : State) : (s.scanKeys).dirty = s.dirty := by unfold State.scanKeys; split <;> rfl
@[simp] theorem State.scanKeys_fault (s : State) : (s.scanKeys).fault = s.fault := by unfold State.scanKeys; split <;> rfl
@[simp] theorem State.scanKeys_config (s : State) : (s.scanKeys).config = s.config := by unfold State.scanKeys; split <;> rfl
@[simp] theorem State.scanKeys_inputs (s : State) : (s.scanKeys).inputs = s.inputs := by unfold State.scanKeys; split <;> rfl
@[simp] theorem State.scanKeys_cycle (s : State) : (s.scanKeys).cycle = s.cycle := by unfold State.scanKeys; split <;> rfl
@[simp] theorem State.scanKeys_renderOut (s : State) : (s.scanKeys).renderOut = s.renderOut := by unfold State.scanKeys; split <;> rfl
@[simp] theorem State.scanKeys_audioOut (s : State) : (s.scanKeys).audioOut = s.audioOut := by unfold State.scanKeys; split <;> rfl

/-! ### `startFrame`: the fields it never changes -/

@[simp] theorem State.startFrame_mem (s : State) : (s.startFrame).mem = s.mem := by unfold State.startFrame; split <;> rfl
@[simp] theorem State.startFrame_v (s : State) : (s.startFrame).v = s.v := by unfold State.startFrame; split <;> rfl
@[simp] theorem State.startFrame_i (s : State) : (s.startFrame).i = s.i := by unfold State.startFrame; split <;> rfl
@[simp] theorem State.startFrame_pc (s : State) : (s.startFrame).pc = s.pc := by unfold State.startFrame; split <;> rfl
@[simp] theorem State.startFrame_sp (s : State) : (s.startFrame).sp = s.sp := by unfold State.startFrame; split <;> rfl
@[simp] theorem State.startFrame_stack (s : State) : (s.startFrame).stack = s.stack := by unfold State.startFrame; split <;> rfl
@[simp] theorem State.startFrame_dt (s : State) : (s.startFrame).dt = s.dt := by unfold State.startFrame; split <;> rfl
@[simp] theorem State.startFrame_st (s : State) : (s.startFrame).st = s.st := by unfold State.startFrame; split <;> rfl
@[simp] theorem State.startFrame_disp (s : State) : (s.startFrame).disp = s.disp := by unfold State.startFrame; split <;> rfl
@[simp] theorem State.startFrame_dirty (s : State) : (s.startFrame).dirty = s.dirty := by unfold State.startFrame; split <;> rfl
@[simp] theorem State.startFrame_kw (s : State) : (s.startFrame).kw = s.kw := by unfold State.startFrame; split <;> rfl
@[simp] theorem State.startFrame_kwCand (s : State) : (s.startFrame).kwCand = s.kwCand := by unfold State.startFrame; split <;> rfl
@[simp] theorem State.startFrame_fault (s : State) : (s.startFrame).fault = s.fault := by unfold State.startFrame; split <;> rfl
@[simp] theorem State.startFrame_config (s : State) : (s.startFrame).config = s.config := by unfold State.startFrame; split <;> rfl
@[simp] theorem State.startFrame_inputs (s : State) : (s.startFrame).inputs = s.inputs := by unfold State.startFrame; split <;> rfl
@[simp] theorem State.startFrame_cycle (s : State) : (s.startFrame).cycle = s.cycle := by unfold State.startFrame; split <;> rfl
@[simp] theorem State.startFrame_renderOut (s : State) : (s.startFrame).renderOut = s.renderOut := by unfold State.startFrame; split <;> rfl
@[simp] theorem State.startFrame_audioOut (s : State) : (s.startFrame).audioOut = s.audioOut := by unfold State.startFrame; split <;> rfl
@[simp] theorem State.startFrame_draws (s : State) : (s.startFrame).draws = s.draws := by unfold State.startFrame; split <;> rfl

/-! ### `enterFrame`: the fields it never changes -/

@[simp] theorem State.enterFrame_mem (s : State) : (s.enterFrame).mem = s.mem := by unfold State.enterFrame; split <;> simp
@[simp] theorem State.enterFrame_v (s : State) : (s.enterFrame).v = s.v := by unfold State.enterFrame; split <;> simp
@[simp] theorem State.enterFrame_i (s : State) : (s.enterFrame).i = s.i := by unfold State.enterFrame; split <;> simp
@[simp] theorem State.enterFrame_pc (s : State) : (s.enterFrame).pc = s.pc := by unfold State.enterFrame; split <;> simp
@[simp] theorem State.enterFrame_sp (s : State) : (s.enterFrame).sp = s.sp := by unfold State.enterFrame; split <;> simp
@[simp] theorem State.enterFrame_stack (s : State) : (s.enterFrame).stack = s.stack := by unfold State.enterFrame; split <;> simp
@[simp] theorem State.enterFrame_dt (s : State) : (s.enterFrame).dt = s.dt := by unfold State.enterFrame; split <;> simp
@[simp] theorem State.enterFrame_st (s : State) : (s.enterFrame).st = s.st := by unfold State.enterFrame; split <;> simp
@[simp] theorem State.enterFrame_disp (s : State) : (s.enterFrame).disp = s.disp := by unfold State.enterFrame; split <;> simp
@[simp] theorem State.enterFrame_dirty (s : State) : (s.enterFrame).dirty = s.dirty := by unfold State.enterFrame; split <;> simp
@[simp] theorem State.enterFrame_kw (s : State) : (s.enterFrame).kw = s.kw := by unfold State.enterFrame; split <;> simp
@[simp] theorem State.enterFrame_kwCand (s : State) : (s.enterFrame).kwCand = s.kwCand := by unfold State.enterFrame; split <;> simp
@[simp] theorem State.enterFrame_fault (s : State) : (s.enterFrame).fault = s.fault := by unfold State.enterFrame; split <;> simp
@[simp] theorem State.enterFrame_config (s : State) : (s.enterFrame).config = s.config := by unfold State.enterFrame; split <;> simp
@[simp] theorem State.enterFrame_inputs (s : State) : (s.enterFrame).inputs = s.inputs := by unfold State.enterFrame; split <;> simp
@[simp] theorem State.enterFrame_cycle (s : State) : (s.enterFrame).cycle = s.cycle := by unfold State.enterFrame; split <;> simp
@[simp] theorem State.enterFrame_renderOut (s : State) : (s.enterFrame).renderOut = s.renderOut := by unfold State.enterFrame; split <;> simp
@[simp] theorem State.enterFrame_audioOut (s : State) : (s.enterFrame).audioOut = s.audioOut := by unfold State.enterFrame; split <;> simp
@[simp] theorem State.enterFrame_draws (s : State) : (s.enterFrame).draws = s.draws := by unfold State.enterFrame; split <;> simp

/-! ### `signalRender`: the fields it never changes -/

@[simp] theorem State.signalRender_mem (s : State) : (s.signalRender).mem = s.mem := by unfold State.signalRender; split <;> rfl
@[simp] theorem State.signalRender_v (s : State) : (s.signalRender).v = s.v := by unfold State.signalRender; split <;> rfl
@[simp] theorem State.signalRender_i (s : State) : (s.signalRender).i = s.i := by unfold State.signalRender; split <;> rfl
@[simp] theorem State.signalRender_pc (s : State) : (s.signalRender).pc = s.pc := by unfold State.signalRender; split <;> rfl
@[simp] theorem State.signalRender_sp (s : State) : (s.signalRender).sp = s.sp := by unfold State.signalRender; split <;> rfl
@[simp] theorem State.signalRender_stack (s : State) : (s.signalRender).stack = s.stack := by unfold State.signalRender; split <;> rfl
@[simp] theorem State.signalRender_dt (s : State) : (s.signalRender).dt = s.dt := by unfold State.signalRender; split <;> rfl
@[simp] theorem State.signalRender_st (s : State) : (s.signalRender).st = s.st := by unfold State.signalRender; split <;> rfl
@[simp] theorem State.signalRender_key (s : State) : (s.signalRender).key = s.key := by unfold State.signalRender; split <;> rfl
@[simp] theorem State.signalRender_disp (s : State) : (s.signalRender).disp = s.disp := by unfold State.signalRender; split <;> rfl
@[simp] theorem State.signalRender_kw (s : State) : (s.signalRender).kw = s.kw := by unfold State.signalRender; split <;> rfl
@[simp] theorem State.signalRender_kwCand (s : State) : (s.signalRender).kwCand = s.kwCand := by unfold State.signalRender; split <;> rfl
@[simp] theorem State.signalRender_fault (s : State) : (s.signalRender).fault = s.fault := by unfold State.signalRender; split <;> rfl
@[simp] theorem State.signalRender_config (s : State) : (s.signalRender).config = s.config := by unfold State.signalRender; split <;> rfl
@[simp] theorem State.signalRender_cycle (s : State) : (s.signalRender).cycle = s.cycle := by unfold State.signalRender; split <;> rfl
@[simp] theorem State.signalRender_audioOut (s : State) : (s.signalRender).audioOut = s.audioOut := by unfold State.signalRender; split <;> rfl
@[simp] theorem State.signalRender_draws (s : State) : (s.signalRender).draws = s.draws := by unfold State.signalRender; split <;> rfl

/-! ### `awaitKey`: the fields it never changes -/

@[simp] theorem State.awaitKey_mem (s : State) (x : Reg) : (s.awaitKey x).mem = s.mem := by
  unfold State.awaitKey; split
  · simp
  · split <;> simp
@[simp] theorem State.awaitKey_i (s : State) (x : Reg) : (s.awaitKey x).i = s.i := by
  unfold State.awaitKey; split
  · simp
  · split <;> simp
@[simp] theorem State.awaitKey_sp (s : State) (x : Reg) : (s.awaitKey x).sp = s.sp := by
  unfold State.awaitKey; split
  · simp
  · split <;> simp
@[simp] theorem State.awaitKey_stack (s : State) (x : Reg) : (s.awaitKey x).stack = s.stack := by
  unfold State.awaitKey; split
  · simp
  · split <;> simp
@[simp] theorem State.awaitKey_dt (s : State) (x : Reg) : (s.awaitKey x).dt = s.dt := by
  unfold State.awaitKey; split
  · simp
  · split <;> simp
@[simp] theorem State.awaitKey_st (s : State) (x : Reg) : (s.awaitKey x).st = s.st := by
  unfold State.awaitKey; split
  · simp
  · split <;> simp
@[simp] theorem State.awaitKey_key (s : State) (x : Reg) : (s.awaitKey x).key = s.key := by
  unfold State.awaitKey; split
  · simp
  · split <;> simp
@[simp] theorem State.awaitKey_disp (s : State) (x : Reg) : (s.awaitKey x).disp = s.disp := by
  unfold State.awaitKey; split
  · simp
  · split <;> simp
@[simp] theorem State.awaitKey_dirty (s : State) (x : Reg) : (s.awaitKey x).dirty = s.dirty := by
  unfold State.awaitKey; split
  · simp
  · split <;> simp
@[simp] theorem State.awaitKey_fault (s : State) (x : Reg) : (s.awaitKey x).fault = s.fault := by
  unfold State.awaitKey; split
  · simp
  · split <;> simp
@[simp] theorem State.awaitKey_config (s : State) (x : Reg) : (s.awaitKey x).config = s.config := by
  unfold State.awaitKey; split
  · simp
  · split <;> simp
@[simp] theorem State.awaitKey_inputs (s : State) (x : Reg) : (s.awaitKey x).inputs = s.inputs := by
  unfold State.awaitKey; split
  · simp
  · split <;> simp
@[simp] theorem State.awaitKey_cycle (s : State) (x : Reg) : (s.awaitKey x).cycle = s.cycle := by
  unfold State.awaitKey; split
  · simp
  · split <;> simp
@[simp] theorem State.awaitKey_renderOut (s : State) (x : Reg) : (s.awaitKey x).renderOut = s.renderOut := by
  unfold State.awaitKey; split
  · simp
  · split <;> simp
@[simp] theorem State.awaitKey_audioOut (s : State) (x : Reg) : (s.awaitKey x).audioOut = s.audioOut := by
  unfold State.awaitKey; split
  · simp
  · split <;> simp

/-! ### `writeBytes`: it changes memory only -/

@[simp] theorem State.writeBytes_v (s : State) (a : Word) (bs : List Byte) : (s.writeBytes a bs).v = s.v := by
  induction bs generalizing s a with
  | nil => rfl
  | cons b bs ih => simp [State.writeBytes, ih]
@[simp] theorem State.writeBytes_i (s : State) (a : Word) (bs : List Byte) : (s.writeBytes a bs).i = s.i := by
  induction bs generalizing s a with
  | nil => rfl
  | cons b bs ih => simp [State.writeBytes, ih]
@[simp] theorem State.writeBytes_pc (s : State) (a : Word) (bs : List Byte) : (s.writeBytes a bs).pc = s.pc := by
  induction bs generalizing s a with
  | nil => rfl
  | cons b bs ih => simp [State.writeBytes, ih]
@[simp] theorem State.writeBytes_sp (s : State) (a : Word) (bs : List Byte) : (s.writeBytes a bs).sp = s.sp := by
  induction bs generalizing s a with
  | nil => rfl
  | cons b bs ih => simp [State.writeBytes, ih]
@[simp] theorem State.writeBytes_stack (s : State) (a : Word) (bs : List Byte) : (s.writeBytes a bs).stack = s.stack := by
  induction bs generalizing s a with
  | nil => rfl
  | cons b bs ih => simp [State.writeBytes, ih]
@[simp] theorem State.writeBytes_dt (s : State) (a : Word) (bs : List Byte) : (s.writeBytes a bs).dt = s.dt := by
  induction bs generalizing s a with
  | nil => rfl
  | cons b bs ih => simp [State.writeBytes, ih]
@[simp] theorem State.writeBytes_st (s : State) (a : Word) (bs : List Byte) : (s.writeBytes a bs).st = s.st := by
  induction bs generalizing s a with
  | nil => rfl
  | cons b bs ih => simp [State.writeBytes, ih]
@[simp] theorem State.writeBytes_key (s : State) (a : Word) (bs : List Byte) : (s.writeBytes a bs).key = s.key := by
  induction bs generalizing s a with
  | nil => rfl
  | cons b bs ih => simp [State.writeBytes, ih]
@[simp] theorem State.writeBytes_disp (s : State) (a : Word) (bs : List Byte) : (s.writeBytes a bs).disp = s.disp := by
  induction bs generalizing s a with
  | nil => rfl
  | cons b bs ih => simp [State.writeBytes, ih]
@[simp] theorem State.writeBytes_dirty (s : State) (a : Word) (bs : List Byte) : (s.writeBytes a bs).dirty = s.dirty := by
  induction bs generalizing s a with
  | nil => rfl
  | cons b bs ih => simp [State.writeBytes, ih]
@[simp] theorem State.writeBytes_kw (s : State) (a : Word) (bs : List Byte) : (s.writeBytes a bs).kw = s.kw := by
  induction bs generalizing s a with
  | nil => rfl
  | cons b bs ih => simp [State.writeBytes, ih]
@[simp] theorem State.writeBytes_kwCand (s : State) (a : Word) (bs : List Byte) : (s.writeBytes a bs).kwCand = s.kwCand := by
  induction bs generalizing s a with
  | nil => rfl
  | cons b bs ih => simp [State.writeBytes, ih]
@[simp] theorem State.writeBytes_fault (s : State) (a : Word) (bs : List Byte) : (s.writeBytes a bs).fault = s.fault := by
  induction bs generalizing s a with
  | nil => rfl
  | cons b bs ih => simp [State.writeBytes, ih]
@[simp] theorem State.writeBytes_config (s : State) (a : Word) (bs : List Byte) : (s.writeBytes a bs).config = s.config := by
  induction bs generalizing s a with
  | nil => rfl
  | cons b bs ih => simp [State.writeBytes, ih]
@[simp] theorem State.writeBytes_inputs (s : State) (a : Word) (bs : List Byte) : (s.writeBytes a bs).inputs = s.inputs := by
  induction bs generalizing s a with
  | nil => rfl
  | cons b bs ih => simp [State.writeBytes, ih]
@[simp] theorem State.writeBytes_cycle (s : State) (a : Word) (bs : List Byte) : (s.writeBytes a bs).cycle = s.cycle := by
  induction bs generalizing s a with
  | nil => rfl
  | cons b bs ih => simp [State.writeBytes, ih]
@[simp] theorem State.writeBytes_renderOut (s : State) (a : Word) (bs : List Byte) : (s.writeBytes a bs).renderOut = s.renderOut := by
  induction bs generalizing s a with
  | nil => rfl
  | cons b bs ih => simp [State.writeBytes, ih]
@[simp] theorem State.writeBytes_audioOut (s : State) (a : Word) (bs : List Byte) : (s.writeBytes a bs).audioOut = s.audioOut := by
  induction bs generalizing s a with
  | nil => rfl
  | cons b bs ih => simp [State.writeBytes, ih]
@[simp] theorem State.writeBytes_draws (s : State) (a : Word) (bs : List Byte) : (s.writeBytes a bs).draws = s.draws := by
  induction bs generalizing s a with
  | nil => rfl
  | cons b bs ih => simp [State.writeBytes, ih]

/-! ### `readInto`: it changes general registers only -/

@[simp] theorem State.readInto_mem (s : State) (a : Word) (rs : List Reg) : (s.readInto a rs).mem = s.mem := by
  induction rs generalizing s a with
  | nil => rfl
  | cons r rs ih => simp [State.readInto, ih]
@[simp] theorem State.readInto_i (s : State) (a : Word) (rs : List Reg) : (s.readInto a rs).i = s.i := by
  induction rs generalizing s a with
  | nil => rfl
  | cons r rs ih => simp [State.readInto, ih]
@[simp] theorem State.readInto_pc (s : State) (a : Word) (rs : List Reg) : (s.readInto a rs).pc = s.pc := by
  induction rs generalizing s a with
  | nil => rfl
  | cons r rs ih => simp [State.readInto, ih]
@[simp] theorem State.readInto_sp (s : State) (a : Word) (rs : List Reg) : (s.readInto a rs).sp = s.sp := by
  induction rs generalizing s a with
  | nil => rfl
  | cons r rs ih => simp [State.readInto, ih]
@[simp] theorem State.readInto_stack (s : State) (a : Word) (rs : List Reg) : (s.readInto a rs).stack = s.stack := by
  induction rs generalizing s a with
  | nil => rfl
  | cons r rs ih => simp [State.readInto, ih]
@[simp] theorem State.readInto_dt (s : State) (a : Word) (rs : List Reg) : (s.readInto a rs).dt = s.dt := by
  induction rs generalizing s a with
  | nil => rfl
  | cons r rs ih => simp [State.readInto, ih]
@[simp] theorem State.readInto_st (s : State) (a : Word) (rs : List Reg) : (s.readInto a rs).st = s.st := by
  induction rs generalizing s a with
  | nil => rfl
  | cons r rs ih => simp [State.readInto, ih]
@[simp] theorem State.readInto_key (s : State) (a : Word) (rs : List Reg) : (s.readInto a rs).key = s.key := by
  induction rs generalizing s a with
  | nil => rfl
  | cons r rs ih => simp [State.readInto, ih]
@[simp] theorem State.readInto_disp (s : State) (a : Word) (rs : List Reg) : (s.readInto a rs).disp = s.disp := by
  induction rs generalizing s a with
  | nil => rfl
  | cons r rs ih => simp [State.readInto, ih]
@[simp] theorem State.readInto_dirty (s : State) (a : Word) (rs : List Reg) : (s.readInto a rs).dirty = s.dirty := by
  induction rs generalizing s a with
  | nil => rfl
  | cons r rs ih => simp [State.readInto, ih]
@[simp] theorem State.readInto_kw (s : State) (a : Word) (rs : List Reg) : (s.readInto a rs).kw = s.kw := by
  induction rs generalizing s a with
  | nil => rfl
  | cons r rs ih => simp [State.readInto, ih]
@[simp] theorem State.readInto_kwCand (s : State) (a : Word) (rs : List Reg) : (s.readInto a rs).kwCand = s.kwCand := by
  induction rs generalizing s a with
  | nil => rfl
  | cons r rs ih => simp [State.readInto, ih]
@[simp] theorem State.readInto_fault (s : State) (a : Word) (rs : List Reg) : (s.readInto a rs).fault = s.fault := by
  induction rs generalizing s a with
  | nil => rfl
  | cons r rs ih => simp [State.readInto, ih]
@[simp] theorem State.readInto_config (s : State) (a : Word) (rs : List Reg) : (s.readInto a rs).config = s.config := by
  induction rs generalizing s a with
  | nil => rfl
  | cons r rs ih => simp [State.readInto, ih]
@[simp] theorem State.readInto_inputs (s : State) (a : Word) (rs : List Reg) : (s.readInto a rs).inputs = s.inputs := by
  induction rs generalizing s a with
  | nil => rfl
  | cons r rs ih => simp [State.readInto, ih]
@[simp] theorem State.readInto_cycle (s : State) (a : Word) (rs : List Reg) : (s.readInto a rs).cycle = s.cycle := by
  induction rs generalizing s a with
  | nil => rfl
  | cons r rs ih => simp [State.readInto, ih]
@[simp] theorem State.readInto_renderOut (s : State) (a : Word) (rs : List Reg) : (s.readInto a rs).renderOut = s.renderOut := by
  induction rs generalizing s a with
  | nil => rfl
  | cons r rs ih => simp [State.readInto, ih]
@[simp] theorem State.readInto_audioOut (s : State) (a : Word) (rs : List Reg) : (s.readInto a rs).audioOut = s.audioOut := by
  induction rs generalizing s a with
  | nil => rfl
  | cons r rs ih => simp [State.readInto, ih]
@[simp] theorem State.readInto_draws (s : State) (a : Word) (rs : List Reg) : (s.readInto a rs).draws = s.draws := by
  induction rs generalizing s a with
  | nil => rfl
  | cons r rs ih => simp [State.readInto, ih]

/-! ### `endFrame` and `leaveCycle`: the fields they never change -/

@[simp] theorem State.endFrame_mem (s : State) : s.endFrame.mem = s.mem := by
  unfold State.endFrame; dsimp only; split <;> simp
@[simp] theorem State.leaveCycle_mem (s : State) : s.leaveCycle.mem = s.mem := by
  unfold State.leaveCycle; split <;> simp
@[simp] theorem State.endFrame_v (s : State) : s.endFrame.v = s.v := by
  unfold State.endFrame; dsimp only; split <;> simp
@[simp] theorem State.leaveCycle_v (s : State) : s.leaveCycle.v = s.v := by
  unfold State.leaveCycle; split <;> simp
@[simp] theorem State.endFrame_i (s : State) : s.endFrame.i = s.i := by
  unfold State.endFrame; dsimp only; split <;> simp
@[simp] theorem State.leaveCycle_i (s : State) : s.leaveCycle.i = s.i := by
  unfold State.leaveCycle; split <;> simp
@[simp] theorem State.endFrame_pc (s : State) : s.endFrame.pc = s.pc := by
  unfold State.endFrame; dsimp only; split <;> simp
@[simp] theorem State.leaveCycle_pc (s : State) : s.leaveCycle.pc = s.pc := by
  unfold State.leaveCycle; split <;> simp
@[simp] theorem State.endFrame_sp (s : State) : s.endFrame.sp = s.sp := by
  unfold State.endFrame; dsimp only; split <;> simp
@[simp] theorem State.leaveCycle_sp (s : State) : s.leaveCycle.sp = s.sp := by
  unfold State.leaveCycle; split <;> simp
@[simp] theorem State.endFrame_stack (s : State) : s.endFrame.stack = s.stack := by
  unfold State.endFrame; dsimp only; split <;> simp
@[simp] theorem State.leaveCycle_stack (s : State) : s.leaveCycle.stack = s.stack := by
  unfold State.leaveCycle; split <;> simp
@[simp] theorem State.endFrame_key (s : State) : s.endFrame.key = s.key := by
  unfold State.endFrame; dsimp only; split <;> simp
@[simp] theorem State.leaveCycle_key (s : State) : s.leaveCycle.key = s.key := by
  unfold State.leaveCycle; split <;> simp
@[simp] theorem State.endFrame_disp (s : State) : s.endFrame.disp = s.disp := by
  unfold State.endFrame; dsimp only; split <;> simp
@[simp] theorem State.leaveCycle_disp (s : State) : s.leaveCycle.disp = s.disp := by
  unfold State.leaveCycle; split <;> simp
@[simp] theorem State.endFrame_kw (s : State) : s.endFrame.kw = s.kw := by
  unfold State.endFrame; dsimp only; split <;> simp
@[simp] theorem State.leaveCycle_kw (s : State) : s.leaveCycle.kw = s.kw := by
  unfold State.leaveCycle; split <;> simp
@[simp] theorem State.endFrame_kwCand (s : State) : s.endFrame.kwCand = s.kwCand := by
  unfold State.endFrame; dsimp only; split <;> simp
@[simp] theorem State.leaveCycle_kwCand (s : State) : s.leaveCycle.kwCand = s.kwCand := by
  unfold State.leaveCycle; split <;> simp
@[simp] theorem State.endFrame_fault (s : State) : s.endFrame.fault = s.fault := by
  unfold State.endFrame; dsimp only; split <;> simp
@[simp] theorem State.leaveCycle_fault (s : State) : s.leaveCycle.fault = s.fault := by
  unfold State.leaveCycle; split <;> simp
@[simp] theorem State.endFrame_config (s : State) : s.endFrame.config = s.config := by
  unfold State.endFrame; dsimp only; split <;> simp
@[simp] theorem State.leaveCycle_config (s : State) : s.leaveCycle.config = s.config := by
  unfold State.leaveCycle; split <;> simp
@[simp] theorem State.endFrame_draws (s : State) : s.endFrame.draws = s.draws := by
  unfold State.endFrame; dsimp only; split <;> simp
@[simp] theorem State.leaveCycle_draws (s : State) : s.leaveCycle.draws = s.draws := by
  unfold State.leaveCycle; split <;> simp

end Sys2Proof.Machine
end

