-- ==== Sys2Proof/Laws/Memory.lean ====
section
/-! SUPPORT. What memory operations do: read after write, and that each keeps the canonical form (20_memory R50, R51, R60). -/

namespace Sys2Proof.Machine

theorem memIndex_lt (a : Word) : memIndex a < 4096 := Nat.mod_lt _ (by decide)

/-! ### Reading -/

theorem Memory.read_insert (m : Memory) (a c : Nat) (b : Byte) :
    (m.insert a b).read c = if a = c then b else m.read c := by
  induction m with
  | nil => simp [Memory.insert, Memory.read]
  | cons d rest ih =>
    unfold Memory.insert
    split
    · simp [Memory.read]
    · split
      · rename_i h
        simp only [Memory.read, h]
        split <;> simp_all
      · simp only [Memory.read, ih]
        split <;> split <;> simp_all

theorem Memory.read_erase (m : Memory) (a c : Nat) :
    (m.erase a).read c = if a = c then resetByte c else m.read c := by
  induction m with
  | nil => simp [Memory.erase, Memory.read]
  | cons d rest ih =>
    have ih' : (Memory.read (rest.filter fun c => c.1 != a) c) = if a = c then resetByte c else Memory.read rest c := ih
    by_cases hd : d.1 = a
    · simp only [Memory.erase, List.filter_cons, hd, bne_self_eq_false, Bool.false_eq_true, if_false, ih', Memory.read]
      split <;> rfl
    · have : (d.1 != a) = true := by simpa using hd
      simp only [Memory.erase, List.filter_cons, this, if_true, Memory.read, ih']
      split <;> split <;> simp_all

/-- Reading after a write: the byte written in its own cell, what was there in every other. -/
theorem Memory.read_write (m : Memory) (a c : Nat) (b : Byte) :
    (m.write a b).read c = if a = c then b else m.read c := by
  unfold Memory.write
  split
  · rw [Memory.read_erase]; split <;> simp_all
  · exact Memory.read_insert m a c b

/-! ### The canonical form -/

theorem Memory.erase_wf {m : Memory} (h : m.wf) (a : Nat) : (m.erase a).wf :=
  ⟨h.1.filter _, fun c hc => h.2 c (List.mem_filter.mp hc).1⟩

theorem Memory.mem_insert {m : Memory} {a : Nat} {b : Byte} {c : Host.Cell} (h : c ∈ m.insert a b) :
    c = (a, b) ∨ c ∈ m := by
  induction m with
  | nil => simpa [Memory.insert] using h
  | cons d rest ih =>
    unfold Memory.insert at h
    split at h
    · simpa using h
    · split at h
      · simp only [List.mem_cons] at h ⊢; tauto
      · simp only [List.mem_cons] at h ⊢
        rcases h with h | h
        · exact .inr (.inl h)
        · rcases ih h with h | h <;> tauto

theorem Memory.insert_pairwise {m : Memory} (h : m.Pairwise (fun c d => c.1 < d.1)) (a : Nat) (b : Byte) :
    (m.insert a b).Pairwise (fun c d => c.1 < d.1) := by
  induction m with
  | nil => simp [Memory.insert]
  | cons d rest ih =>
    obtain ⟨hd, hr⟩ := List.pairwise_cons.mp h
    unfold Memory.insert
    split
    · rename_i had
      refine List.pairwise_cons.mpr ⟨fun c hc => ?_, h⟩
      rcases List.mem_cons.mp hc with rfl | hc
      · exact had
      · exact lt_trans had (hd c hc)
    · split
      · rename_i _ hda
        exact List.pairwise_cons.mpr ⟨fun c hc => hda ▸ hd c hc, hr⟩
      · rename_i h1 h2
        refine List.pairwise_cons.mpr ⟨fun c hc => ?_, ih hr⟩
        rcases Memory.mem_insert hc with rfl | hc
        · exact show d.1 < a by omega
        · exact hd c hc

/-- Every write inside the address space keeps the canonical form. -/
theorem Memory.write_wf {m : Memory} (h : m.wf) {a : Nat} (ha : a < 4096) (b : Byte) : (m.write a b).wf := by
  unfold Memory.write
  split
  · exact Memory.erase_wf h a
  · rename_i hb
    refine ⟨Memory.insert_pairwise h.1 a b, fun c hc => ?_⟩
    rcases Memory.mem_insert hc with rfl | hc
    · exact ⟨ha, hb⟩
    · exact h.2 c hc

theorem State.writeByte_wf {s : State} (h : s.mem.wf) (a : Word) (b : Byte) : (s.writeByte a b).mem.wf :=
  Memory.write_wf h (memIndex_lt a) b

theorem State.writeBytes_wf {s : State} (h : s.mem.wf) (a : Word) (bs : List Byte) : (s.writeBytes a bs).mem.wf := by
  induction bs generalizing s a with
  | nil => exact h
  | cons b bs ih => exact ih (State.writeByte_wf h a b) (a + 1)

theorem Memory.load_wf {m : Memory} (h : m.wf) (a : Nat) (bs : List Byte) (ha : a + bs.length ≤ 4096) :
    (m.load a bs).wf := by
  induction bs generalizing m a with
  | nil => exact h
  | cons b bs ih =>
    simp only [List.length_cons] at ha
    exact ih (Memory.write_wf h (by omega) b) (a + 1) (by omega)

theorem State.reset_mem_wf : State.reset.mem.wf := by decide

/-! ### Runs of bytes -/

/-- Loading puts the k-th byte at `a + k` and leaves every other index alone. -/
theorem Memory.read_load (m : Memory) (a c : Nat) (bs : List Byte) :
    (m.load a bs).read c = if h : a ≤ c ∧ c < a + bs.length then bs[c - a]'(by omega) else m.read c := by
  induction bs generalizing m a with
  | nil => rw [dif_neg (by simp)]; rfl
  | cons b bs ih =>
    simp only [Memory.load, ih, Memory.read_write, List.length_cons]
    by_cases h1 : a + 1 ≤ c ∧ c < a + 1 + bs.length
    · rw [dif_pos h1, dif_pos (by omega)]
      obtain ⟨k, rfl⟩ : ∃ k, c = a + 1 + k := ⟨c - (a + 1), by omega⟩
      simp only [show a + 1 + k - a = k + 1 by omega, show a + 1 + k - (a + 1) = k by omega, List.getElem_cons_succ]
    · rw [dif_neg h1]
      by_cases h2 : a = c
      · subst h2; rw [dif_pos (by omega)]; simp
      · rw [if_neg h2, dif_neg (by omega)]

/-- The array index of the k-th address after `a`. -/
theorem memIndex_add (a : Word) (k : Nat) : memIndex (a + BitVec.ofNat 16 k) = (a.toNat + k) % 4096 := by
  simp only [memIndex, BitVec.toNat_add, BitVec.toNat_ofNat]; omega

/-- The address after the next one. -/
theorem word_add_one_add (a : Word) (k : Nat) : a + 1 + BitVec.ofNat 16 k = a + BitVec.ofNat 16 (k + 1) := by
  rw [BitVec.add_assoc, Nat.add_comm k 1, BitVec.ofNat_add]; rfl

theorem word_add_zero (a : Word) : a + BitVec.ofNat 16 0 = a := BitVec.add_zero a

/-- Bytes written from `a` upwards leave every other array index alone. -/
theorem State.read_writeBytes_of_ne (s : State) (a : Word) (bs : List Byte) (c : Nat)
    (h : ∀ k < bs.length, memIndex (a + BitVec.ofNat 16 k) ≠ c) : (s.writeBytes a bs).mem.read c = s.mem.read c := by
  induction bs generalizing s a with
  | nil => rfl
  | cons b bs ih =>
    have h0 : memIndex a ≠ c := by simpa only [word_add_zero] using h 0 (by simp)
    have hs : ∀ k < bs.length, memIndex (a + 1 + BitVec.ofNat 16 k) ≠ c := fun k hk => by
      rw [word_add_one_add]; exact h (k + 1) (by simpa using hk)
    rw [State.writeBytes, ih _ _ hs, State.writeByte_mem, Memory.read_write, if_neg h0]

/-- Bytes written from `a` upwards, at most 4096 of them, read back in order. -/
theorem State.read_writeBytes (s : State) (a : Word) (bs : List Byte) (hl : bs.length ≤ 4096) (k : Nat)
    (hk : k < bs.length) : (s.writeBytes a bs).readByte (a + BitVec.ofNat 16 k) = bs[k] := by
  induction bs generalizing s a k with
  | nil => simp at hk
  | cons b bs ih =>
    simp only [List.length_cons] at hl hk
    cases k with
    | zero =>
      rw [word_add_zero, State.readByte, State.writeBytes, State.read_writeBytes_of_ne]
      · simp [Memory.read_write]
      · intro j hj
        rw [word_add_one_add, memIndex_add, memIndex]; omega
    | succ k =>
      rw [State.writeBytes, ← word_add_one_add, ih (s.writeByte a b) (a + 1) (by omega) k (by omega)]; rfl

end Sys2Proof.Machine
end

