-- ==== Sys2Proof/Laws/Registers.lean ====
section
/-! SUPPORT. What the register operations do to each register (10_state R22, R23; 42_alu R123, R124). -/

namespace Sys2Proof.Machine

theorem State.reg_setReg (s : State) (x r : Reg) (b : Byte) : (s.setReg x b).reg r = if r = x then b else s.reg r := by
  simp only [State.reg, State.setReg, Vector.getElem_set, Fin.ext_iff, eq_comm]

@[simp] theorem State.reg_setReg_self (s : State) (x : Reg) (b : Byte) : (s.setReg x b).reg x = b := by
  simp [State.reg_setReg]

/-- VX then VF: VF holds the flag, VX the result unless it is VF, every other register its old value. -/
theorem State.reg_setRegThenFlag (s : State) (x r : Reg) (a f : Byte) :
    (s.setRegThenFlag x a f).reg r = if r = vF then f else if r = x then a else s.reg r := by
  simp only [State.setRegThenFlag, State.setFlag, State.reg_setReg]

/-- Registers that hold the same values in both states read alike. -/
theorem State.reg_congr {s t : State} (h : t.v = s.v) (r : Reg) : t.reg r = s.reg r := by
  simp only [State.reg, h]

theorem mem_allIndices (k : Fin 16) : k ∈ allIndices := by revert k; decide

theorem mem_regsThrough (x r : Reg) : r ∈ regsThrough x ↔ r ≤ x := by revert x r; decide

theorem regsThrough_length (x : Reg) : (regsThrough x).length = x.val + 1 := by revert x; decide

theorem regsThrough_getElem (x : Reg) (k : Nat) (h : k < (regsThrough x).length) : ((regsThrough x)[k]).val = k := by
  revert k; revert x; decide

/-- A register outside the list keeps its value. -/
theorem State.reg_readInto_of_not_mem (s : State) (a : Word) (rs : List Reg) (r : Reg) (h : r ∉ rs) :
    (s.readInto a rs).reg r = s.reg r := by
  induction rs generalizing s a with
  | nil => rfl
  | cons q rs ih =>
    simp only [List.mem_cons, not_or] at h
    rw [State.readInto, ih _ _ h.2, State.reg_setReg, if_neg h.1]

/-- The k-th register of a list without repeats receives the k-th byte. -/
theorem State.reg_readInto (s : State) (a : Word) (rs : List Reg) (hn : rs.Nodup) (k : Nat) (hk : k < rs.length) :
    (s.readInto a rs).reg rs[k] = s.readByte (a + BitVec.ofNat 16 k) := by
  induction rs generalizing s a k with
  | nil => simp at hk
  | cons q rs ih =>
    obtain ⟨hq, hn⟩ := List.nodup_cons.mp hn
    cases k with
    | zero => rw [State.readInto, word_add_zero]; simp [State.reg_readInto_of_not_mem _ _ _ _ hq]
    | succ k =>
      simp only [List.length_cons] at hk
      rw [State.readInto, List.getElem_cons_succ, ih _ _ hn k (by omega), word_add_one_add]
      rfl

theorem regsThrough_nodup (x : Reg) : (regsThrough x).Nodup := by revert x; decide

end Sys2Proof.Machine
end

