-- ==== Sys2Proof/Laws/Drawing.lean ====
section
/-! SUPPORT. The display cell by cell: flipping, clearing, and what the two loops of a draw do to each cell and to the collision
(44_display R170-R175). -/

namespace Sys2Proof.Machine

/-- Two displays with the same cells are the same. -/
theorem Display.ext_cells {d e : Display} (h : ∀ x y, d.cell x y = e.cell x y) : d = e := by
  apply Vector.ext
  intro y hy
  apply Vector.ext
  intro x hx
  exact h ⟨x, hx⟩ ⟨y, hy⟩

@[simp] theorem Display.cell_blank (x : Fin 64) (y : Fin 32) : Display.blank.cell x y = false := by
  simp [Display.cell, Display.blank]

theorem Display.cell_flip (d : Display) (x cx : Fin 64) (y cy : Fin 32) :
    (d.flip x y).cell cx cy = (d.cell cx cy ^^ decide (x = cx ∧ y = cy)) := by
  simp only [Display.cell, Display.flip, Vector.getElem_set, Fin.ext_iff]
  by_cases hy : y.val = cy.val
  · by_cases hx : x.val = cx.val <;> simp [hx, hy]
  · simp [hy]

/-! ### One row -/

/-- Whether one of the bit positions `js` of `row`, drawn from column `x0`, is a 1 bit on column `cx`. -/
def rowBitAt (row : Byte) (x0 : Nat) (js : List Nat) (cx : Fin 64) : Bool :=
  js.any (fun j => decide (x0 + j = cx.val) && row.getLsbD (7 - j))

theorem rowBitAt_cons (row : Byte) (x0 j : Nat) (js : List Nat) (cx : Fin 64) :
    rowBitAt row x0 (j :: js) cx = (decide (x0 + j = cx.val) && row.getLsbD (7 - j) || rowBitAt row x0 js cx) := rfl

/-- Positions that start at or past the right edge are on no column. -/
theorem rowBitAt_of_le (row : Byte) (x0 m : Nat) (js : List Nat) (cx : Fin 64) (hm : cx.val < x0 + m)
    (h : ∀ j ∈ js, m ≤ j) : rowBitAt row x0 js cx = false := by
  simp only [rowBitAt, List.any_eq_false, Bool.and_eq_true, decide_eq_true_eq, not_and]
  intro j hj he
  have := h j hj
  omega

/-- The bits of one row, most significant first: a cell is inverted exactly if a 1 bit lies on it. -/
theorem Canvas.drawBits_cell (c : Canvas) (row : Byte) (x0 : Nat) (y : Fin 32) (js : List Nat)
    (hj : js.Pairwise (· < ·)) (cx : Fin 64) (cy : Fin 32) :
    (c.drawBits row x0 y js).disp.cell cx cy = (c.disp.cell cx cy ^^ (decide (y = cy) && rowBitAt row x0 js cx)) := by
  induction js generalizing c with
  | nil => simp [Canvas.drawBits, rowBitAt]
  | cons j js ih =>
    obtain ⟨hlt, hjs⟩ := List.pairwise_cons.mp hj
    unfold Canvas.drawBits
    split
    · rename_i hx
      rw [ih _ hjs, rowBitAt_cons]
      by_cases hb : row.getLsbD (7 - j) = true
      · by_cases hc : x0 + j = cx.val
        · have : rowBitAt row x0 js cx = false :=
            rowBitAt_of_le row x0 (j + 1) js cx (by omega) (fun k hk => hlt k hk)
          simp [hb, hc, this, Canvas.plot, Display.cell_flip, Fin.ext_iff]
        · simp [hb, hc, Canvas.plot, Display.cell_flip, Fin.ext_iff]
      · simp [hb]
    · rw [rowBitAt_of_le row x0 j (j :: js) cx (by omega)]
      · simp
      · intro k hk
        rcases List.mem_cons.mp hk with rfl | hk
        · exact le_rfl
        · exact (hlt k hk).le

/-- The bits of one row collide exactly if a 1 bit lies on a set cell, or a collision was there before. -/
theorem Canvas.drawBits_collided (c : Canvas) (row : Byte) (x0 : Nat) (y : Fin 32) (js : List Nat)
    (hj : js.Pairwise (· < ·)) :
    (c.drawBits row x0 y js).collided = true ↔
      c.collided = true ∨ ∃ cx, rowBitAt row x0 js cx = true ∧ c.disp.cell cx y = true := by
  induction js generalizing c with
  | nil => simp [Canvas.drawBits, rowBitAt]
  | cons j js ih =>
    obtain ⟨hlt, hjs⟩ := List.pairwise_cons.mp hj
    unfold Canvas.drawBits
    split
    · rename_i hx
      rw [ih _ hjs]
      by_cases hb : row.getLsbD (7 - j) = true
      · simp only [hb, if_true, Canvas.plot, Bool.or_eq_true, or_assoc]
        refine or_congr_right ⟨?_, ?_⟩
        · rintro (h | ⟨cx, h1, h2⟩)
          · exact ⟨⟨x0 + j, hx⟩, by simp [rowBitAt_cons, hb], h⟩
          · refine ⟨cx, by simp [rowBitAt_cons, h1], ?_⟩
            by_cases hc : x0 + j = cx.val
            · rw [rowBitAt_of_le row x0 (j + 1) js cx (by omega) (fun k hk => hlt k hk)] at h1; simp at h1
            · simpa [Display.cell_flip, Fin.ext_iff, hc] using h2
        · rintro ⟨cx, h1, h2⟩
          by_cases hc : x0 + j = cx.val
          · left
            have : (⟨x0 + j, hx⟩ : Fin 64) = cx := Fin.ext hc
            rwa [this]
          · right
            refine ⟨cx, by simpa [rowBitAt_cons, hc] using h1, ?_⟩
            simpa [Display.cell_flip, Fin.ext_iff, hc] using h2
      · simp [hb, rowBitAt_cons]
    · constructor
      · exact .inl
      · rintro (h | ⟨cx, h1, -⟩)
        · exact h
        · rw [rowBitAt_of_le row x0 j (j :: js) cx (by omega)] at h1
          · simp at h1
          · intro k hk
            rcases List.mem_cons.mp hk with rfl | hk
            · exact le_rfl
            · exact (hlt k hk).le

/-! ### All rows -/

/-- Whether one of the rows `ks` of the sprite at `a`, drawn from (x0, y0), has a 1 bit on the cell. -/
def spriteRowsAt (s : State) (a : Word) (x0 y0 : Nat) (ks : List Nat) (cx : Fin 64) (cy : Fin 32) : Bool :=
  ks.any (fun k => decide (y0 + k = cy.val) && rowBitAt (s.readByte (a + BitVec.ofNat 16 k)) x0 bitPositions cx)

theorem spriteRowsAt_of_le (s : State) (a : Word) (x0 y0 m : Nat) (ks : List Nat) (cx : Fin 64) (cy : Fin 32)
    (hm : cy.val < y0 + m) (h : ∀ k ∈ ks, m ≤ k) : spriteRowsAt s a x0 y0 ks cx cy = false := by
  simp only [spriteRowsAt, List.any_eq_false, Bool.and_eq_true, decide_eq_true_eq, not_and]
  intro k hk he
  have := h k hk
  omega

theorem spriteRowsAt_cons (s : State) (a : Word) (x0 y0 k : Nat) (ks : List Nat) (cx : Fin 64) (cy : Fin 32) :
    spriteRowsAt s a x0 y0 (k :: ks) cx cy =
      (decide (y0 + k = cy.val) && rowBitAt (s.readByte (a + BitVec.ofNat 16 k)) x0 bitPositions cx ||
        spriteRowsAt s a x0 y0 ks cx cy) := rfl

theorem bitPositions_pairwise : bitPositions.Pairwise (· < ·) := by decide

/-- The rows of a draw: a cell is inverted exactly if a 1 bit of the sprite lies on it. -/
theorem Canvas.drawRows_cell (c : Canvas) (s : State) (a : Word) (x0 y0 : Nat) (ks : List Nat)
    (hk : ks.Pairwise (· < ·)) (cx : Fin 64) (cy : Fin 32) :
    (c.drawRows s a x0 y0 ks).disp.cell cx cy = (c.disp.cell cx cy ^^ spriteRowsAt s a x0 y0 ks cx cy) := by
  induction ks generalizing c with
  | nil => simp [Canvas.drawRows, spriteRowsAt]
  | cons k ks ih =>
    obtain ⟨hlt, hks⟩ := List.pairwise_cons.mp hk
    unfold Canvas.drawRows
    split
    · rename_i hy
      rw [ih _ hks, Canvas.drawBits_cell _ _ _ _ _ bitPositions_pairwise, spriteRowsAt_cons]
      by_cases hc : y0 + k = cy.val
      · rw [spriteRowsAt_of_le s a x0 y0 (k + 1) ks cx cy (by omega) (fun j hj => hlt j hj)]
        simp [hc]
      · simp [hc, Fin.ext_iff]
    · rw [spriteRowsAt_of_le s a x0 y0 k (k :: ks) cx cy (by omega)]
      · simp
      · intro j hj
        rcases List.mem_cons.mp hj with rfl | hj
        · exact le_rfl
        · exact (hlt j hj).le

/-- The rows of a draw collide exactly if a 1 bit of the sprite lies on a cell that was set. -/
theorem Canvas.drawRows_collided (c : Canvas) (s : State) (a : Word) (x0 y0 : Nat) (ks : List Nat)
    (hk : ks.Pairwise (· < ·)) :
    (c.drawRows s a x0 y0 ks).collided = true ↔
      c.collided = true ∨ ∃ cx cy, spriteRowsAt s a x0 y0 ks cx cy = true ∧ c.disp.cell cx cy = true := by
  induction ks generalizing c with
  | nil => simp [Canvas.drawRows, spriteRowsAt]
  | cons k ks ih =>
    obtain ⟨hlt, hks⟩ := List.pairwise_cons.mp hk
    unfold Canvas.drawRows
    split
    · rename_i hy
      rw [ih _ hks, Canvas.drawBits_collided _ _ _ _ _ bitPositions_pairwise, or_assoc]
      refine or_congr_right ⟨?_, ?_⟩
      · rintro (⟨cx, h1, h2⟩ | ⟨cx, cy, h1, h2⟩)
        · exact ⟨cx, ⟨y0 + k, hy⟩, by simp [spriteRowsAt_cons, h1], h2⟩
        · refine ⟨cx, cy, by simp [spriteRowsAt_cons, h1], ?_⟩
          by_cases hc : y0 + k = cy.val
          · rw [spriteRowsAt_of_le s a x0 y0 (k + 1) ks cx cy (by omega) (fun j hj => hlt j hj)] at h1
            simp at h1
          · simpa [Canvas.drawBits_cell _ _ _ _ _ bitPositions_pairwise, Fin.ext_iff, hc] using h2
      · rintro ⟨cx, cy, h1, h2⟩
        by_cases hc : y0 + k = cy.val
        · left
          have hcy : (⟨y0 + k, hy⟩ : Fin 32) = cy := Fin.ext hc
          rw [spriteRowsAt_cons, spriteRowsAt_of_le s a x0 y0 (k + 1) ks cx cy (by omega) (fun j hj => hlt j hj)] at h1
          exact ⟨cx, by simpa [hc] using h1, by rwa [hcy]⟩
        · right
          refine ⟨cx, cy, by simpa [spriteRowsAt_cons, hc] using h1, ?_⟩
          simpa [Canvas.drawBits_cell _ _ _ _ _ bitPositions_pairwise, Fin.ext_iff, hc] using h2
    · constructor
      · exact .inl
      · rintro (h | ⟨cx, cy, h1, -⟩)
        · exact h
        · rw [spriteRowsAt_of_le s a x0 y0 k (k :: ks) cx cy (by omega)] at h1
          · simp at h1
          · intro j hj
            rcases List.mem_cons.mp hj with rfl | hj
            · exact le_rfl
            · exact (hlt j hj).le

end Sys2Proof.Machine
end

