-- ==== Sys2Proof/Laws/Operations.lean ====
section
/-! SUPPORT. What each shared operation can do, said once: the cases it can end in and the pieces of the state it leaves alone. -/

namespace Sys2Proof.Machine

open Sys2Proof.Safety

/-! ### Unchanged pieces -/

theorem OnlyChanges.trans {ps : List Part} {s t u : State} (h : OnlyChanges ps s t) (k : OnlyChanges ps t u) :
    OnlyChanges ps s u := by
  intro p hp
  have h := h p hp
  have k := k p hp
  cases p <;> simp_all only [Part.Same, and_self]

theorem OnlyChanges.mono {ps qs : List Part} {s t : State} (h : OnlyChanges ps s t) (hq : ∀ p ∈ ps, p ∈ qs) :
    OnlyChanges qs s t := fun p hp => h p (fun hm => hp (hq p hm))

theorem State.setReg_onlyChanges (s : State) (x : Reg) (b : Byte) : OnlyChanges [.reg x] s (s.setReg x b) := by
  intro p hp
  cases p <;> simp_all [Part.Same, State.reg_setReg, State.held]

theorem State.setRegThenFlag_onlyChanges (s : State) (x : Reg) (r f : Byte) :
    OnlyChanges [.reg x, .reg vF] s (s.setRegThenFlag x r f) := by
  intro p hp
  cases p <;> simp_all [Part.Same, State.reg_setRegThenFlag, State.held]

theorem State.setPc_onlyChanges (s : State) (w : Word) : OnlyChanges [.counter] s (s.setPc w) := by
  intro p hp
  cases p <;> simp_all [Part.Same, State.reg, State.held]

theorem State.setI_onlyChanges (s : State) (w : Word) : OnlyChanges [.index] s (s.setI w) := by
  intro p hp
  cases p <;> simp_all [Part.Same, State.reg, State.held]

theorem State.skipIf_onlyChanges (s : State) (c : Bool) : OnlyChanges [.counter] s (s.skipIf c) := by
  intro p hp
  cases p <;> simp_all [Part.Same, State.reg, State.held]

theorem State.raiseFault_onlyChanges (s : State) (c : Fault) : OnlyChanges [.fault, .counter] s (s.raiseFault c) := by
  intro p hp
  cases p <;> simp_all [Part.Same, State.reg, State.held]

theorem State.writeBytes_onlyChanges (s : State) (bs : List Byte) :
    OnlyChanges (bytesFromI s bs.length) s (s.writeBytes s.i bs) := by
  intro p hp
  cases p <;> simp only [Part.Same, State.reg, State.held, State.writeBytes_v, State.writeBytes_i, State.writeBytes_pc,
    State.writeBytes_sp, State.writeBytes_stack, State.writeBytes_dt, State.writeBytes_st, State.writeBytes_key,
    State.writeBytes_disp, State.writeBytes_dirty, State.writeBytes_kw, State.writeBytes_kwCand, State.writeBytes_fault,
    State.writeBytes_config, State.writeBytes_inputs, State.writeBytes_cycle, State.writeBytes_renderOut,
    State.writeBytes_audioOut, State.writeBytes_draws, and_self]
  exact State.read_writeBytes_of_ne _ _ _ _ fun k hk e =>
    hp (List.mem_map.mpr ⟨k, List.mem_range.mpr hk, by rw [e]⟩)

theorem State.leaveCycle_onlyChanges (s : State) :
    OnlyChanges [.delay, .sound, .dirty, .inputs, .position, .signals] s s.leaveCycle := by
  intro p hp
  cases p <;> simp_all [Part.Same, State.reg, State.held]

theorem State.enterFrame_unchanged (s : State) : Unchanged (fun p => ∃ k, p = .heldKey k) s s.enterFrame := by
  intro p hp
  cases p <;> simp_all [Part.Same, State.reg]

/-! ### The call stack -/

theorem State.callTo_of_lt {s : State} (h : s.sp.val < 16) (w : Word) :
    s.callTo w = { s with stack := s.stack.set s.sp.val s.pc, sp := ⟨s.sp.val + 1, by omega⟩, pc := w } := dif_pos h

theorem State.callTo_of_full {s : State} (h : s.sp.val = 16) (w : Word) : s.callTo w = s.raiseFault .stackOverflow :=
  dif_neg (by omega)

theorem State.returnFromCall_of_zero {s : State} (h : s.sp.val = 0) : s.returnFromCall = s.raiseFault .stackUnderflow := by
  have : s.sp = ⟨0, by omega⟩ := Fin.ext h
  simp only [State.returnFromCall, this]

theorem State.returnFromCall_of_succ {s : State} {k : Nat} (hk : k < 16) (h : s.sp.val = k + 1) :
    s.returnFromCall = { s with sp := ⟨k, by omega⟩, pc := s.stack[k] } := by
  have : s.sp = ⟨k + 1, by omega⟩ := Fin.ext h
  simp only [State.returnFromCall, this]

/-! ### The get-key scan -/

theorem State.mem_heldKeys (s : State) (k : Key) : k ∈ s.heldKeys ↔ s.held k = true := by
  simp [State.heldKeys, mem_allIndices]

/-- The scan does nothing with no key held, and otherwise records a held key and waits for its release. -/
theorem State.scanKeys_cases (s : State) :
    ((∀ k, s.held k = false) ∧ s.scanKeys = s) ∨
      ∃ k, s.held k = true ∧ (s.scanKeys = s.awaitRelease k ∨ s.scanKeys = (s.awaitRelease k).countDraw) := by
  unfold State.scanKeys
  split
  · rename_i h
    refine .inl ⟨fun k => ?_, rfl⟩
    have := State.mem_heldKeys s k
    rw [h] at this
    simpa using this.symm
  · rename_i k h
    exact .inr ⟨k, (State.mem_heldKeys s k).mp (by simp [h]), .inl rfl⟩
  · rename_i k ks _ h
    refine .inr ⟨_, (State.mem_heldKeys s _).mp ?_, .inr rfl⟩
    rw [h, pickKey, List.getD_eq_getElem?_getD, List.getElem?_eq_getElem (by simpa using Nat.mod_lt _ (Nat.succ_pos _))]
    exact List.getElem_mem _

/-! ### The frame driver -/

/-- Nothing before the execution of an instruction changes what is fetched. -/
theorem State.enterFrame_fetchWord (s : State) : s.enterFrame.fetchWord = s.fetchWord := by
  simp [State.fetchWord, State.readByte]

/-- What a step can be: a halted frame, a cycle that does nothing, or the execution of the decoded word. -/
theorem step_cases (s : State) :
    (s.fault ≠ none ∧ s.cycle = 0 ∧ step s = .next s) ∨
    ((s.fault ≠ none ∧ s.cycle ≠ 0 ∨ s.fault = none ∧ s.config.cyclesPerFrame = 0) ∧
      step s = .next s.enterFrame.leaveCycle) ∨
    (s.fault = none ∧ 0 < s.config.cyclesPerFrame ∧
      step s = onNext State.leaveCycle (exec (decode s.fetchWord) s.enterFrame.advance)) := by
  cases hf : s.fault with
  | some c =>
    by_cases hc : s.cycle = 0
    · exact .inl ⟨by simp, hc, by simp [step, State.enterCycle, hf, hc]⟩
    · exact .inr (.inl ⟨.inl ⟨by simp, hc⟩, by simp [step, State.enterCycle, hf, hc]⟩)
  | none =>
    by_cases hn : s.config.cyclesPerFrame = 0
    · exact .inr (.inl ⟨.inr ⟨rfl, hn⟩, by simp [step, State.enterCycle, hf, hn]⟩)
    · refine .inr (.inr ⟨rfl, by omega, ?_⟩)
      simp [step, State.enterCycle, hf, hn, State.enterFrame_fetchWord]

/-- What leaving a cycle does: it counts the cycle, or ends the frame. -/
theorem State.leaveCycle_cases (s : State) :
    (s.cycle + 1 < s.config.cyclesPerFrame ∧ s.leaveCycle = { s with cycle := s.cycle + 1 }) ∨
    (¬ s.cycle + 1 < s.config.cyclesPerFrame ∧ s.leaveCycle = s.endFrame) := by
  by_cases h : s.cycle + 1 < s.config.cyclesPerFrame
  · exact .inl ⟨h, if_pos h⟩
  · exact .inr ⟨h, if_neg h⟩

theorem countDown_toNat (b : Byte) : (countDown b).toNat = b.toNat - 1 := by
  unfold countDown
  split
  · simp_all
  · rename_i h
    have h0 : b.toNat ≠ 0 := fun e => h (BitVec.eq_of_toNat_eq e)
    have := b.isLt
    rw [BitVec.toNat_sub]
    change (2 ^ 8 - 1 + b.toNat) % 2 ^ 8 = _
    omega

end Sys2Proof.Machine
end

