-- ==== Sys2Proof/Laws/PerInstr.lean ====
section
/-! SUPPORT. Statements made per instruction, one lemma per constructor. `EncodesItsRow`: the word of a well-formed instruction
matches the mask and match of its row of the decode table, and that of a reserved one has its family's high nibble
(30_encoding R75, R76). -/

namespace Sys2Proof.Laws.EncodesItsRow

open Sys2Proof.Safety

/-- The family nibble of a reserved constructor (30_encoding R76); of any other, its own row's. -/
def family (i : Instr) : Nibble := fieldF (encode i)

/-- The word of `i` matches its row; without a row, it has a family that has reserved words. -/
def Statement (i : Instr) : Prop :=
  i.WellFormed = true →
    match rowOf i with
    | some row => encode i &&& row.1 = row.2
    | none => family i ∈ [(0x0 : Nibble), 0x5, 0x8, 0x9, 0xE, 0xF]

theorem of_fnnn (f : Nibble) (nnn : Addr) : wordFNNN f nnn &&& 0xF000 = wordFNNN f 0 := by
  rw [and_F000, fieldF_wordFNNN]

theorem of_fxnn (f : Nibble) (x : Reg) (nn : Byte) : wordFXNN f x nn &&& 0xF000 = wordFNNN f 0 := by
  rw [and_F000, fieldF_wordFXNN]

theorem of_fxnn_sub (f : Nibble) (x : Reg) (nn : Byte) : wordFXNN f x nn &&& 0xF0FF = wordFXNN f 0 nn := by
  rw [and_F0FF, fieldF_wordFXNN, fieldNN_wordFXNN]

theorem of_fxyn (f : Nibble) (x y : Reg) (n : Nibble) : wordFXYN f x y n &&& 0xF000 = wordFNNN f 0 := by
  rw [and_F000, fieldF_wordFXYN]

theorem of_fxyn_sub (f : Nibble) (x y : Reg) (n : Nibble) : wordFXYN f x y n &&& 0xF00F = wordFXYN f 0 0 n := by
  rw [and_F00F, fieldF_wordFXYN, fieldN_wordFXYN]

theorem cls : Statement .cls := fun _ => and_FFFF 0x00E0
theorem ret : Statement .ret := fun _ => and_FFFF 0x00EE
theorem jp (nnn : Addr) : Statement (.jp nnn) := fun _ => of_fnnn 0x1 nnn
theorem call (nnn : Addr) : Statement (.call nnn) := fun _ => of_fnnn 0x2 nnn
theorem seImm (x : Reg) (nn : Byte) : Statement (.seImm x nn) := fun _ => of_fxnn 0x3 x nn
theorem sneImm (x : Reg) (nn : Byte) : Statement (.sneImm x nn) := fun _ => of_fxnn 0x4 x nn
theorem seReg (x y : Reg) : Statement (.seReg x y) := fun _ => of_fxyn_sub 0x5 x y 0x0
theorem ldImm (x : Reg) (nn : Byte) : Statement (.ldImm x nn) := fun _ => of_fxnn 0x6 x nn
theorem addImm (x : Reg) (nn : Byte) : Statement (.addImm x nn) := fun _ => of_fxnn 0x7 x nn
theorem ldReg (x y : Reg) : Statement (.ldReg x y) := fun _ => of_fxyn_sub 0x8 x y 0x0
theorem orReg (x y : Reg) : Statement (.orReg x y) := fun _ => of_fxyn_sub 0x8 x y 0x1
theorem andReg (x y : Reg) : Statement (.andReg x y) := fun _ => of_fxyn_sub 0x8 x y 0x2
theorem xorReg (x y : Reg) : Statement (.xorReg x y) := fun _ => of_fxyn_sub 0x8 x y 0x3
theorem addReg (x y : Reg) : Statement (.addReg x y) := fun _ => of_fxyn_sub 0x8 x y 0x4
theorem subReg (x y : Reg) : Statement (.subReg x y) := fun _ => of_fxyn_sub 0x8 x y 0x5
theorem shr (x y : Reg) : Statement (.shr x y) := fun _ => of_fxyn_sub 0x8 x y 0x6
theorem subn (x y : Reg) : Statement (.subn x y) := fun _ => of_fxyn_sub 0x8 x y 0x7
theorem shl (x y : Reg) : Statement (.shl x y) := fun _ => of_fxyn_sub 0x8 x y 0xE
theorem sneReg (x y : Reg) : Statement (.sneReg x y) := fun _ => of_fxyn_sub 0x9 x y 0x0
theorem ldI (nnn : Addr) : Statement (.ldI nnn) := fun _ => of_fnnn 0xA nnn
theorem jpV0 (nnn : Addr) : Statement (.jpV0 nnn) := fun _ => of_fnnn 0xB nnn
theorem rnd (x : Reg) (nn : Byte) : Statement (.rnd x nn) := fun _ => of_fxnn 0xC x nn
theorem drw (x y : Reg) (n : Nibble) : Statement (.drw x y n) := fun _ => of_fxyn 0xD x y n
theorem skp (x : Reg) : Statement (.skp x) := fun _ => of_fxnn_sub 0xE x 0x9E
theorem sknp (x : Reg) : Statement (.sknp x) := fun _ => of_fxnn_sub 0xE x 0xA1
theorem ldFromDT (x : Reg) : Statement (.ldFromDT x) := fun _ => of_fxnn_sub 0xF x 0x07
theorem ldKey (x : Reg) : Statement (.ldKey x) := fun _ => of_fxnn_sub 0xF x 0x0A
theorem ldDT (x : Reg) : Statement (.ldDT x) := fun _ => of_fxnn_sub 0xF x 0x15
theorem ldST (x : Reg) : Statement (.ldST x) := fun _ => of_fxnn_sub 0xF x 0x18
theorem addI (x : Reg) : Statement (.addI x) := fun _ => of_fxnn_sub 0xF x 0x1E
theorem ldFont (x : Reg) : Statement (.ldFont x) := fun _ => of_fxnn_sub 0xF x 0x29
theorem ldBcd (x : Reg) : Statement (.ldBcd x) := fun _ => of_fxnn_sub 0xF x 0x33
theorem storeRegs (x : Reg) : Statement (.storeRegs x) := fun _ => of_fxnn_sub 0xF x 0x55
theorem loadRegs (x : Reg) : Statement (.loadRegs x) := fun _ => of_fxnn_sub 0xF x 0x65
theorem reserved0 (nnn : Addr) : Statement (.reserved0 nnn) := fun _ => by simp [family, encode, rowOf]
theorem reserved5 (x y : Reg) (n : Nibble) : Statement (.reserved5 x y n) := fun _ => by simp [family, encode, rowOf]
theorem reserved8 (x y : Reg) (n : Nibble) : Statement (.reserved8 x y n) := fun _ => by simp [family, encode, rowOf]
theorem reserved9 (x y : Reg) (n : Nibble) : Statement (.reserved9 x y n) := fun _ => by simp [family, encode, rowOf]
theorem reservedE (x : Reg) (nn : Byte) : Statement (.reservedE x nn) := fun _ => by simp [family, encode, rowOf]
theorem reservedF (x : Reg) (nn : Byte) : Statement (.reservedF x nn) := fun _ => by simp [family, encode, rowOf]

end Sys2Proof.Laws.EncodesItsRow
end

