-- ==== Sys2Proof/Tests/Slice0.lean ====
section
/-! SUPPORT. The model's own tests: ill-formed terms, words written out from the spec's encodings, one step per instruction with
the spec's own vectors (95_test_vectors), and witnesses that the hypotheses of the statements can be met. -/

namespace Sys2Proof.Tests

open Sys2Proof.Machine Sys2Proof.Safety

/-! ### Well-formedness: an ill-formed term for each check (30_encoding R76) -/

theorem test_wf_refuses_cls_as_reserved : (Instr.reserved0 0x0E0).WellFormed = false := by decide
theorem test_wf_refuses_ret_as_reserved : (Instr.reserved0 0x0EE).WellFormed = false := by decide
theorem test_wf_refuses_5XY0_as_reserved : (Instr.reserved5 1 2 0).WellFormed = false := by decide
theorem test_wf_refuses_8XYE_as_reserved : (Instr.reserved8 1 2 0xE).WellFormed = false := by decide
theorem test_wf_refuses_9XY0_as_reserved : (Instr.reserved9 1 2 0).WellFormed = false := by decide
theorem test_wf_refuses_EX9E_as_reserved : (Instr.reservedE 1 0x9E).WellFormed = false := by decide
theorem test_wf_refuses_FX65_as_reserved : (Instr.reservedF 1 0x65).WellFormed = false := by decide
theorem test_wf_accepts_reserved :
    (Instr.reserved0 0x1E0).WellFormed ∧ (Instr.reserved8 1 2 0xF).WellFormed ∧ (Instr.reservedF 1 0x08).WellFormed := by decide

/-! ### Decoding: a word for every constructor, bit by bit from the encodings of spec/opcode_table.json -/

theorem test_decode_family0 :
    decode 0b0000000011100000 = .cls ∧ decode 0b0000000011101110 = .ret ∧ decode 0b0000000111100000 = .reserved0 0x1E0 := by decide
theorem test_decode_jumps_and_calls :
    decode 0b0001101010111100 = .jp 0xABC ∧ decode 0b0010001000010000 = .call 0x210 ∧
    decode 0b1011001100000000 = .jpV0 0x300 := by decide
theorem test_decode_skips :
    decode 0b0011001100001010 = .seImm 3 0x0A ∧ decode 0b0100001100001011 = .sneImm 3 0x0B ∧
    decode 0b0101000100100000 = .seReg 1 2 ∧ decode 0b1001000100100000 = .sneReg 1 2 := by decide
theorem test_decode_immediates :
    decode 0b0110101001000010 = .ldImm 0xA 0x42 ∧ decode 0b0111010100000011 = .addImm 5 3 ∧
    decode 0b1100001100001111 = .rnd 3 0x0F := by decide
theorem test_decode_logic :
    decode 0b1000000100100000 = .ldReg 1 2 ∧ decode 0b1000000100100001 = .orReg 1 2 ∧
    decode 0b1000000100100010 = .andReg 1 2 ∧ decode 0b1000000100100011 = .xorReg 1 2 := by decide
theorem test_decode_arithmetic :
    decode 0b1000000100100100 = .addReg 1 2 ∧ decode 0b1000000100100101 = .subReg 1 2 ∧
    decode 0b1000000100100110 = .shr 1 2 ∧ decode 0b1000000100100111 = .subn 1 2 ∧
    decode 0b1000000100101110 = .shl 1 2 := by decide
theorem test_decode_index_and_memory :
    decode 0b1010001000001000 = .ldI 0x208 ∧ decode 0b1111010100011110 = .addI 5 ∧ decode 0b1111010100101001 = .ldFont 5 ∧
    decode 0b1111101000110011 = .ldBcd 0xA ∧ decode 0b1111001001010101 = .storeRegs 2 ∧
    decode 0b1111001001100101 = .loadRegs 2 := by decide
theorem test_decode_draw : decode 0b1101000100100101 = .drw 1 2 5 := by decide
theorem test_decode_keypad_and_timers :
    decode 0b1110000110011110 = .skp 1 ∧ decode 0b1110001010100001 = .sknp 2 ∧ decode 0b1111001100000111 = .ldFromDT 3 ∧
    decode 0b1111001100001010 = .ldKey 3 ∧ decode 0b1111000000010101 = .ldDT 0 ∧ decode 0b1111000000011000 = .ldST 0 := by decide
theorem test_decode_reserved :
    decode 0b0101000100100001 = .reserved5 1 2 1 ∧ decode 0b1000000100101000 = .reserved8 1 2 8 ∧
    decode 0b1001000100100001 = .reserved9 1 2 1 ∧ decode 0b1110000110011111 = .reservedE 1 0x9F ∧
    decode 0b1111000101110101 = .reservedF 1 0x75 := by decide
theorem test_decode_bytes_high_first : decodeBytes [0x12, 0x00, 0xEE] = .ok (.jp 0x200, [0xEE]) := by decide
theorem test_decode_bytes_truncated : decodeBytes [0x12] = .error .truncated := by decide
theorem test_decode_table_word : decodeTableWord 16 0xA208 = some (.ldI 0x208) := by decide
theorem test_encode_bytes_high_first : encodeBytes (.jp 0x208) = [0x12, 0x08] := by decide

/-! ### One step each: the vectors of 95_test_vectors L2, from the reset state with a few registers set -/

/-- The reset state with V0, V1, VF and I set, and the word stored at 0x200. -/
def at200 (w : Nat) (v0 v1 vf : Byte) (i : Word := 0) (quirks : Quirks := Quirks.allOff) : State :=
  ({ ((State.reset.setReg 0 v0).setReg 1 v1).setReg vF vf with i := i, config := ⟨quirks, 8⟩ } : State).withFetchWord 16 w

/-- A piece of the state after one step. -/
def after {α : Type} (s : State) (f : State → α) : Option α :=
  match step s with
  | .next t => some (f t)
  | .fault _ => none
  | .refused _ => none

/-- V0, VF and pc after one step. -/
def v0fp (s : State) : Option (Byte × Byte × Word) := after s (fun t => (t.reg 0, t.reg vF, t.pc))

theorem test_fetch_straddles_the_wrap :
    after ({ State.reset with pc := 0xFFF }.withFetchWord 16 0x6A42) (fun t => (t.reg 0xA, t.pc)) = some (0x42, 0x1001) := by decide
theorem test_reset_runs_no_ops : after State.reset (fun t => (t.pc, t.cycle)) = some (0x202, 1) := by decide
theorem test_ldImm : v0fp (at200 0x6005 0 0 7) = some (5, 7, 0x202) := by decide
theorem test_addImm_wraps_without_flag : v0fp (at200 0x7001 0xFF 0 7) = some (0, 7, 0x202) := by decide
theorem test_addImm_on_vF : v0fp (at200 0x7F01 0 0 0xFF) = some (0, 0, 0x202) := by decide
theorem test_ldReg : v0fp (at200 0x8010 1 0x3C 7) = some (0x3C, 7, 0x202) := by decide
theorem test_orReg : v0fp (at200 0x8011 0x0F 0xF0 7) = some (0xFF, 7, 0x202) := by decide
theorem test_orReg_quirk : v0fp (at200 0x8011 0x0F 0xF0 7 0 ⟨true, false, false, false⟩) = some (0xFF, 0, 0x202) := by decide
theorem test_andReg : v0fp (at200 0x8012 0x0F 0x3C 7) = some (0x0C, 7, 0x202) := by decide
theorem test_xorReg : v0fp (at200 0x8013 0x0F 0x3C 7) = some (0x33, 7, 0x202) := by decide
theorem test_addReg_carry : v0fp (at200 0x8014 0xFF 0x01 7) = some (0, 1, 0x202) := by decide
theorem test_addReg_reads_vF_first : v0fp (at200 0x80F4 0x10 0 1) = some (0x11, 0, 0x202) := by decide
theorem test_subReg_borrow : v0fp (at200 0x8015 5 7 7) = some (0xFE, 0, 0x202) := by decide
theorem test_subReg_flag_wins : v0fp (at200 0x8F15 0 3 5) = some (0, 1, 0x202) := by decide
theorem test_shr_ignores_vy : v0fp (at200 0x8016 5 0xFE 7) = some (2, 1, 0x202) := by decide
theorem test_shr_quirk : v0fp (at200 0x8016 0xFF 4 7 0 ⟨false, true, false, false⟩) = some (2, 0, 0x202) := by decide
theorem test_subn : v0fp (at200 0x8017 5 7 7) = some (2, 1, 0x202) := by decide
theorem test_shl : v0fp (at200 0x800E 0x81 0 0) = some (2, 1, 0x202) := by decide
theorem test_shl_quirk : v0fp (at200 0x801E 1 0x40 7 0 ⟨false, true, false, false⟩) = some (0x80, 0, 0x202) := by decide
theorem test_rnd_no_mask_bits : after (at200 0xC000 9 0 0) (fun t => t.draws) = some 1 := by decide
theorem test_jp : after (at200 0x1ABC 0 0 0) State.pc = some 0xABC := by decide
theorem test_jpV0_is_not_masked : after (at200 0xBFFF 0xFF 0 0) State.pc = some 0x10FE := by decide
theorem test_call : after (at200 0x2300 0 0 0) (fun t => (t.stack[0], t.sp.val, t.pc)) = some (0x202, 1, 0x300) := by decide
theorem test_call_overflow :
    after { at200 0x2300 0 0 0 with sp := 16 } (fun t => (t.fault, t.sp.val, t.pc)) = some (some .stackOverflow, 16, 0x200) := by decide
theorem test_ret : after { at200 0x00EE 0 0 0 with sp := 1, stack := State.reset.stack.set 0 0x456 }
    (fun t => (t.sp.val, t.pc, t.stack[0])) = some (0, 0x456, 0x456) := by decide
theorem test_ret_underflow :
    after (at200 0x00EE 0 0 0) (fun t => (t.fault, t.sp.val, t.pc)) = some (some .stackUnderflow, 0, 0x200) := by decide
theorem test_seImm : after (at200 0x300A 0x0A 0 0) State.pc = some 0x204 := by decide
theorem test_sneImm : after (at200 0x400A 0x0A 0 0) State.pc = some 0x202 := by decide
theorem test_seReg : after (at200 0x5010 7 8 0) State.pc = some 0x202 := by decide
theorem test_sneReg : after (at200 0x9010 7 8 0) State.pc = some 0x204 := by decide
theorem test_ldI : after (at200 0xA123 0 0 0) State.i = some 0x123 := by decide
theorem test_addI_wraps : after (at200 0xF01E 1 0 7 0xFFFF) (fun t => (t.i, t.reg vF)) = some (0, 7) := by decide
theorem test_ldFont_low_nibble : after (at200 0xF029 0x1A 0 0) State.i = some 0x32 := by decide
theorem test_ldBcd_wraps : after (at200 0xF033 0xFF 0 0 0xFFE)
    (fun t => (t.readByte 0xFFE, t.readByte 0xFFF, t.readByte 0x000, t.readByte 0x001)) = some (2, 5, 5, 0x90) := by decide
theorem test_storeRegs : after (at200 0xF155 0xAB 2 0 0x300) (fun t => (t.readByte 0x300, t.readByte 0x301, t.readByte 0x302, t.i)) =
    some (0xAB, 2, 0, 0x300) := by decide
theorem test_storeRegs_quirk : after (at200 0xF055 1 0 0 0x300 ⟨false, false, true, false⟩) State.i = some 0x301 := by decide
theorem test_loadRegs_reads_the_font : after (at200 0xF165 0 0 9 0x032) (fun t => (t.reg 0, t.reg 1, t.reg vF, t.i)) =
    some (0xF0, 0x90, 9, 0x032) := by decide
theorem test_loadRegs_quirk : after (at200 0xFF65 0 0 0 0x300 ⟨false, false, false, true⟩) State.i = some 0x310 := by decide
theorem test_cls : after { at200 0x00E0 0 0 7 with disp := Display.blank.flip 3 4 } (fun t => (t.disp.cell 3 4, t.dirty, t.reg vF)) =
    some (false, true, 7) := by decide
theorem test_drw_clips_at_the_right_edge : after (at200 0xD011 60 0 1 0x000)
    (fun t => (t.disp.cell 60 0, t.disp.cell 63 0, t.disp.cell 0 0, t.reg vF, t.dirty)) = some (true, true, false, 0, true) := by decide
theorem test_drw_origin_in_vF_and_collision : after { at200 0xDF11 0 0 3 0x02D with disp := Display.blank.flip 3 0 }
    (fun t => (t.disp.cell 3 0, t.disp.cell 6 0, t.reg vF)) = some (false, true, 1) := by decide
theorem test_skp_low_nibble : after { at200 0xE19E 0 0x25 0 with key := State.reset.key.set 5 true } State.pc = some 0x204 := by decide
theorem test_sknp_held : after { at200 0xE1A1 0 0x05 0 with key := State.reset.key.set 5 true } State.pc = some 0x202 := by decide
theorem test_ldFromDT : after { at200 0xFF07 0 0 0 with dt := 5 } (fun t => t.reg vF) = some 5 := by decide
theorem test_ldDT : after (at200 0xF015 3 0 0) State.dt = some 3 := by decide
theorem test_ldST : after (at200 0xF018 0x10 0 0) State.st = some 0x10 := by decide
theorem test_ldKey_idle_records : after { at200 0xF10A 0 0 0 with key := State.reset.key.set 0xC true }
    (fun t => (t.pc, t.kw, t.kwCand, t.reg 1)) = some (0x200, .awaitingRelease, 0xC, 0) := by decide
theorem test_ldKey_delivers_on_release :
    after { at200 0xFF0A 0 0 0 with kw := .awaitingRelease, kwCand := 0xC, key := State.reset.key.set 1 true }
      (fun t => (t.pc, t.kw, t.reg vF)) = some (0x202, .idle, 0xC) := by decide
theorem test_reserved_words :
    v0fp (at200 0x01E0 1 2 3) = some (1, 3, 0x202) ∧ v0fp (at200 0x5001 1 2 3) = some (1, 3, 0x202) ∧
    v0fp (at200 0x8F18 1 2 3) = some (1, 3, 0x202) ∧ v0fp (at200 0x9011 1 2 3) = some (1, 3, 0x202) ∧
    v0fp (at200 0xE0A0 1 2 3) = some (1, 3, 0x202) ∧ v0fp (at200 0xF030 1 2 3) = some (1, 3, 0x202) := by decide

/-! ### The frame driver (95_test_vectors L2.7) -/

theorem test_frame_end_ticks_both_timers :
    after { at200 0x1200 0 0 0 with dt := 2, st := 1, cycle := 7 } (fun t => (t.dt, t.st, t.audioOut, t.cycle)) =
      some (1, 0, false, 0) := by decide
theorem test_no_tick_inside_a_frame :
    after { at200 0x1200 0 0 0 with dt := 2, st := 1, cycle := 6 } (fun t => (t.dt, t.st, t.cycle)) = some (2, 1, 7) := by decide
theorem test_faulted_frame_does_not_tick :
    after { at200 0x1200 0 0 0 with dt := 5, cycle := 7, fault := some .stackOverflow } (fun t => (t.dt, t.pc, t.cycle)) =
      some (5, 0x200, 0) := by decide
theorem test_frame_start_latches_keys_and_repaint_clears_dirty :
    after { at200 0x1200 0 0 0 with config := ⟨Quirks.allOff, 1⟩, dirty := true, inputs := [⟨State.reset.key.set 9 true, true⟩] }
      (fun t => (t.held 9, t.renderOut, t.dirty, t.inputs.length)) = some (true, true, false, 0) := by decide
theorem test_keysAfterCalls_last_call_wins :
    (keysAfterCalls [(3, true), (9, true), (3, false)] State.reset.key).toList.findIdxs id = [9] := by decide
/-- Loading the default font and an empty ROM lists nothing: `State.reset` is the launch with the defaults. -/
theorem test_default_font_lists_nothing : resetMemory ⟨fontTable.toArray, rfl⟩ [] = State.reset.mem := by decide
theorem test_launch_is_accepted_up_to_3584 :
    (List.replicate 3584 (0 : Byte)).length ≤ maxRomLength ∧ ¬ (List.replicate 3585 (0 : Byte)).length ≤ maxRomLength := by
  rw [List.length_replicate, List.length_replicate]; decide

/-! ### Witnesses: the hypotheses of each statement can be met, at the boundary of each clause -/

theorem witness_DecodeOfEncode :
    (Instr.drw 15 15 15).WellFormed = true ∧ (Instr.reserved0 0xFFF).WellFormed = true ∧
    (Instr.reserved5 15 15 15).WellFormed = true ∧ (Instr.reservedF 15 0xFF).WellFormed = true := by decide
theorem witness_DecodeSelects_row :
    ((0xF000, 0x1000) : Word × Word) ∈ definedRows ∧ (0x1FFF : Word) &&& 0xF000 = 0x1000 ∧
    ((0xF0FF, 0xF065) : Word × Word) ∈ definedRows ∧ (0xFF65 : Word) &&& 0xF0FF = 0xF065 := by decide
theorem witness_DecodeSelects_none : rowOf (decode 0xFFFF) = none ∧ ∀ row ∈ definedRows, (0xFFFF : Word) &&& row.1 ≠ row.2 :=
  ⟨by decide, by simp [definedRows]⟩
theorem witness_StepRuns : (at200 0x2300 0 0 0).fault = none ∧ 0 < (at200 0x2300 0 0 0).config.cyclesPerFrame ∧
    decodeBytes [(at200 0x2300 0 0 0).readByte 0x200, (at200 0x2300 0 0 0).readByte 0x201] = .ok (.call 0x300, []) := by decide
theorem witness_StepRuns_at_the_top_of_memory :
    decodeBytes [({ State.reset with pc := 0xFFF }.withFetchWord 16 0x6A42).readByte 0xFFF,
      ({ State.reset with pc := 0xFFF }.withFetchWord 16 0x6A42).readByte 0x1000] = .ok (.ldImm 0xA 0x42, []) := by decide

/-- The reset state with one host input, which holds key 9 and repaints. -/
def withInput : State := { State.reset with inputs := [⟨State.reset.key.set 9 true, true⟩] }

/-- The reset state with one cycle per frame. -/
def oneCycle : State := { State.reset with config := ⟨Quirks.allOff, 1⟩ }

theorem witness_FrameStart :
    ({ State.reset with cycle := 1 } : State).cycle ≠ 0 ∧ withInput.cycle = 0 ∧ withInput.inputs ≠ [] ∧
    withInput.enterFrame.held 9 = true ∧ State.reset.cycle = 0 ∧ State.reset.inputs = [] := by decide
theorem witness_TimersCountDown_inside : State.reset.cycle + 1 < State.reset.config.cyclesPerFrame ∧
    ({ State.reset with cycle := 6 } : State).cycle + 1 < ({ State.reset with cycle := 6 } : State).config.cyclesPerFrame := by
  decide
theorem witness_TimersCountDown_end :
    ¬ ({ State.reset with cycle := 7, dt := 0, st := 255 } : State).cycle + 1 < State.reset.config.cyclesPerFrame ∧
    ({ State.reset with cycle := 7, dt := 0, st := 255 } : State).leaveCycle.st = 254 := by decide
theorem witness_TimersCountDown_fault : ({ oneCycle with fault := some .stackUnderflow } : State).fault ≠ none ∧
    ({ oneCycle with dt := 255, fault := some .stackUnderflow } : State).leaveCycle.dt = 255 := by decide
theorem witness_FrameEndSignals : ¬ oneCycle.cycle + 1 < oneCycle.config.cyclesPerFrame ∧
    ({ oneCycle with st := 1 } : State).st = 1 ∧ ({ oneCycle with st := 1 } : State).leaveCycle.audioOut = false ∧
    ({ oneCycle with st := 2 } : State).leaveCycle.audioOut = true ∧
    ({ oneCycle with dirty := true } : State).leaveCycle.dirty = true ∧
    ({ oneCycle with dirty := true, inputs := withInput.inputs } : State).leaveCycle.dirty = false := by decide
theorem witness_StepsOfAFrame : State.reset.cycle = 0 ∧ ({ State.reset with config := ⟨Quirks.allOff, 0⟩ } : State).cycle = 0 ∧
    oneCycle.cycle = 0 := by decide
theorem witness_DelayTimerDecays : (∀ j < 1, NoDelayWrite (frames j { oneCycle with dt := 2 })) ∧
    Good (frames 1 { oneCycle with dt := 2 }) ∧ (frames 1 { oneCycle with dt := 2 }).dt = 1 := by
  refine ⟨fun j hj c x hc => ?_, by unfold Good; decide, by decide⟩
  obtain rfl : j = 0 := by omega
  obtain rfl : c = 0 := by change c < 1 at hc; omega
  have : decode (cycles 0 (frames 0 ({ oneCycle with dt := 2 } : State)).startFrame).fetchWord = .reserved0 0 := by decide
  rw [this]
  exact Instr.noConfusion
theorem witness_DelayTimerDecays_no_frames (s : State) : ∀ j < 0, NoDelayWrite (frames j s) := by
  intro j hj; omega
theorem witness_RecordedFaultHalts : ({ State.reset with fault := some .stackOverflow } : State).fault ≠ none ∧
    ({ State.reset with fault := some .stackOverflow } : State).cycle = 0 ∧
    ({ State.reset with fault := some .stackUnderflow, cycle := 7 } : State).cycle ≠ 0 := by decide
theorem witness_OnlyCallAndRetFault_underflow : ∃ t, (at200 0x00EE 0 0 0).fault = none ∧ step (at200 0x00EE 0 0 0) = .next t ∧
    t.fault = some .stackUnderflow := ⟨_, rfl, rfl, by decide⟩
theorem witness_OnlyCallAndRetFault_overflow : ∃ t, step { at200 0x2300 0 0 0 with sp := 16 } = .next t ∧
    t.fault = some .stackOverflow := ⟨_, rfl, by decide⟩
theorem witness_StepKeepsMemoryCanonical :
    ∃ t, (at200 0xF055 0xAB 0 0 0xFFF).mem.wf ∧ step (at200 0xF055 0xAB 0 0 0xFFF) = .next t ∧ t.mem.length = 3 :=
  ⟨_, by decide, rfl, by decide⟩

/-- A get-key at 0x200 that waits for key 12 to be released. -/
def waiting : State := { at200 0xFF0A 0 0 0 with kw := .awaitingRelease, kwCand := 0xC }

theorem witness_StepKeepsTheWait_released : WaitsAtGetKey waiting ∧ ∃ t, step waiting = .next t ∧ t.kw = .idle :=
  ⟨fun _ => ⟨15, by decide⟩, _, rfl, by decide⟩
theorem witness_StepKeepsTheWait_held : WaitsAtGetKey { waiting with key := State.reset.key.set 12 true } ∧
    ∃ t, step { waiting with key := State.reset.key.set 12 true } = .next t ∧ t.kw = .awaitingRelease :=
  ⟨fun _ => ⟨15, by decide⟩, _, rfl, by decide⟩
theorem witness_StepKeepsFramePosition : ∃ t, step { State.reset with cycle := 100 } = .next t ∧ t.cycle = 0 :=
  ⟨_, rfl, by decide⟩
theorem witness_LaunchLaysOut : ([] : List Byte).length ≤ 3584 ∧ (List.replicate 3584 (0xFF : Byte)).length ≤ 3584 := by
  rw [List.length_replicate]; decide
theorem witness_LaunchRefuses : 4096 - 512 < (List.replicate 3585 (0xFF : Byte)).length := by
  rw [List.length_replicate]; decide
theorem witness_CallPushes : State.reset.sp.val < 16 ∧ ({ State.reset with sp := 15 } : State).sp.val < 16 := by decide
theorem witness_ReturnPops : ({ State.reset with sp := 1 } : State).sp.val = (0 : Fin 16).val + 1 ∧
    ({ State.reset with sp := 16 } : State).sp.val = (15 : Fin 16).val + 1 := by decide
theorem witness_StackFaults : ({ State.reset with sp := 16 } : State).sp.val = 16 ∧ State.reset.sp.val = 0 := by decide
theorem witness_CallThenReturn : ∃ t u : State, exec (.call 0x300) { State.reset with sp := 15 } = .next t ∧
    u.sp = t.sp ∧ u.stack[15] = t.stack[15] ∧ u.pc = 0xABC := ⟨_, { State.reset with
      sp := 16, stack := State.reset.stack.set 15 0x200, pc := 0xABC }, rfl, by decide, by decide, rfl⟩
theorem witness_LogicResults :
    (Instr.xorReg 15 1, State.reset.reg 15 ^^^ State.reset.reg 1) ∈
      [(Instr.orReg 15 1, State.reset.reg 15 ||| State.reset.reg 1), (.andReg 15 1, State.reset.reg 15 &&& State.reset.reg 1),
        (.xorReg 15 1, State.reset.reg 15 ^^^ State.reset.reg 1)] ∧
    State.reset.config.quirks.quirkVfReset = false ∧
    ({ State.reset with config := ⟨⟨true, true, true, true⟩, 8⟩ } : State).config.quirks.quirkVfReset = true := by decide
theorem witness_AddAndSubtract_not_vF : (14 : Reg) ≠ vF ∧
    (∃ t, exec (.addReg 15 15) (at200 0 0 0 0xFF) = .next t ∧ t.reg vF = 1) ∧
    (∃ t, exec (.subn 15 1) (at200 0 0 0xFF 0xFF) = .next t ∧ t.reg vF = 1) := ⟨by decide, ⟨_, rfl, by decide⟩, _, rfl, by decide⟩
theorem witness_Shifts : (0x81 : Byte) = (if (at200 0 0x81 2 0).config.quirks.quirkShiftUsesVy = true then (at200 0 0x81 2 0).reg 1
    else (at200 0 0x81 2 0).reg 0) ∧ (2 : Byte) = (if (at200 0 0x81 2 0 0 ⟨false, true, false, false⟩).config.quirks.quirkShiftUsesVy = true
    then (at200 0 0x81 2 0).reg 1 else (at200 0 0x81 2 0).reg 0) := by decide
theorem witness_StoreAndLoad_range : (0 : Reg) ≤ 0 ∧ (15 : Reg) ≤ 15 ∧ ¬ (15 : Reg) ≤ 14 := by decide
theorem witness_StoreThenLoad : ∃ t u : State, exec (.storeRegs 15) (at200 0 1 2 3 0xFF8) = .next t ∧ u.i = 0xFF8 ∧ u.mem = t.mem ∧
    u.reg 0 = 0 := ⟨_, { State.reset with i := 0xFF8, mem := _ }, rfl, rfl, rfl, by decide⟩
theorem witness_DrawFlagsACollision :
    (∃ t, exec (.drw 0 1 1) { at200 0 63 31 0 with disp := Display.blank.flip 63 31 } = .next t ∧
      t.disp.cell 63 31 = false ∧ t.reg vF = 1) ∧
    ∃ t, exec (.drw 0 1 1) (at200 0 63 31 0) = .next t ∧ t.disp.cell 63 31 = true ∧ t.reg vF = 0 :=
  ⟨⟨_, rfl, by decide, by decide⟩, _, rfl, by decide, by decide⟩
theorem witness_DrawingTwice : ∃ t w, (0 : Reg) ≠ vF ∧ (1 : Reg) ≠ vF ∧ exec (.drw 0 1 1) (at200 0 0 0 0) = .next t ∧
    exec (.drw 0 1 1) t = .next w ∧ w.reg vF = 1 ∧ w.disp.cell 0 0 = false :=
  ⟨_, _, by decide, by decide, rfl, rfl, by decide, by decide⟩

/-- The first four cells of row 0 set: what the row byte 0xF0 draws at (0, 0). -/
def fourCells : State :=
  { at200 0 0 0 0 with disp := (((Display.blank.flip 0 0).flip 1 0).flip 2 0).flip 3 0 }

/-- 44_display R174 by hand: the first draw clears all four cells, so the second meets only clear cells (log entry 20). -/
theorem witness_SecondDrawFlag_without_collision : ∃ t w, exec (.drw 0 1 1) fourCells = .next t ∧
    exec (.drw 0 1 1) t = .next w ∧ t.reg vF = 1 ∧ w.reg vF = 0 ∧ spriteBit fourCells 0 1 1 0 0 = true :=
  ⟨_, _, rfl, rfl, by decide, by decide, by decide⟩
theorem witness_KeySkips : (15 : Key).val = ((at200 0 0xFF 0 0).reg 0).toNat % 16 ∧
    (0 : Key).val = ((at200 0 0xF0 0 0).reg 0).toNat % 16 := by decide
theorem witness_GetKey_idle : State.reset.kw = .idle ∧ (∀ k, State.reset.held k = false) ∧
    ∃ k, ({ State.reset with key := State.reset.key.set 15 true } : State).held k = true := ⟨rfl, by decide, 15, by decide⟩
theorem witness_GetKey_awaiting : waiting.kw = .awaitingRelease ∧ waiting.held waiting.kwCand = false ∧
    ({ waiting with key := State.reset.key.set 12 true } : State).held 12 = true := by decide
theorem witness_GetKeyWithoutAKey : (at200 0xF00A 0 0 0).fault = none ∧ 0 < (at200 0xF00A 0 0 0).config.cyclesPerFrame ∧
    decode (at200 0xF00A 0 0 0).fetchWord = .ldKey 0 ∧ (at200 0xF00A 0 0 0).kw = .idle ∧
    ∀ k, (at200 0xF00A 0 0 0).enterFrame.held k = false := by decide
theorem witness_AnyHeldKey_several : (at200 0xF00A 0 0 0).kw = .idle ∧
    ({ at200 0xF00A 0 0 0 with key := (State.reset.key.set 0 true).set 15 true } : State).heldKeys = 0 :: [15] ∧
    pickKey 0 0 [15] = 0 ∧ pickKey 1 0 [15] = 15 := by decide
theorem witness_AnyHeldKey_one :
    ({ at200 0xF00A 0 0 0 with key := State.reset.key.set 15 true } : State).heldKeys = 15 :: [] ∧ pickKey 7 15 [] = 15 := by decide
theorem witness_ReservedWords : (∀ row ∈ definedRows, (0x01E0 : Word) &&& row.1 ≠ row.2) ∧
    ∀ row ∈ definedRows, (0x8128 : Word) &&& row.1 ≠ row.2 := by simp [definedRows]
theorem witness_Decodes_clauses : (0x1FFF : Word) &&& 0xF000 = 0x1000 ∧ (0x6FFF : Word) &&& 0xF000 = 0x6000 ∧
    (0xAFFF : Word) &&& 0xF000 = 0xA000 ∧ (0x00E0 : Word) &&& 0xFFFF = 0x00E0 := by decide
theorem witness_HostSideState : ∃ t, OnlyChanges [.sound, .dirty, .inputs, .position, .signals] (at200 0 0 0 0)
      { at200 0 0 0 0 with st := 255, dirty := true, inputs := withInput.inputs, cycle := 3, renderOut := true } ∧
    exec (.ldFromDT 0) (at200 0 0 0 0) = .next t := by
  refine ⟨_, ?_, rfl⟩
  intro p hp
  cases p <;> simp_all [Part.Same, State.reg, State.held]

end Sys2Proof.Tests
end

section
/-! PROOFS. Control flow: 1NNN (41_control_flow R101), with the facts about masked words and the zero-extended immediate. -/

namespace Sys2Proof

/-- A match of mask 0xF000 fixes the family nibble (30_encoding R75). -/
theorem fieldF_eq_of_and_F000 {op : Word} {f : Nibble} (h : op &&& 0xF000 = wordFNNN f 0) : fieldF op = f := by
  rw [and_F000] at h
  simpa using congrArg fieldF h

theorem decode_of_fieldF_eq_one {op : Word} (h : fieldF op = 0x1) : decode op = .jp (fieldNNN op) := by
  rw [decode, h]; rfl

namespace Machine

open Sys2Proof.Safety

@[simp] theorem zextAddr_toNat (nnn : Addr) : (zextAddr nnn).toNat = nnn.toNat :=
  BitVec.toNat_setWidth_of_le (by decide)

theorem exec_jp (nnn : Addr) (s : State) : exec (.jp nnn) s = .next (s.setPc (zextAddr nnn)) := rfl

theorem decodes_jp : Decodes 0xF000 0x1000 (fun op => .jp (fieldNNN op)) := fun _ h =>
  have row : (0x1000 : Word) = wordFNNN 0x1 0 := by decide
  decode_of_fieldF_eq_one (fieldF_eq_of_and_F000 (h.trans row))

/-- Settles O25: the mask fixes the family nibble, and JP is one `setPc`, which changes pc alone. -/
theorem jumpSetsThePcToItsTarget : Obligations.JumpSetsThePcToItsTarget :=
  ⟨decodes_jp, fun nnn s => ⟨s.setPc (zextAddr nnn), exec_jp nnn s, zextAddr_toNat nnn, s.setPc_onlyChanges _⟩⟩

end Machine

end Sys2Proof
end

section
/-! PROOFS. The ALU: 6XNN (42_alu R121). -/

namespace Sys2Proof

theorem decode_of_fieldF_eq_six {op : Word} (h : fieldF op = 0x6) : decode op = .ldImm (fieldX op) (fieldNN op) := by
  rw [decode, h]; rfl

namespace Machine

open Sys2Proof.Safety

theorem exec_ldImm (x : Reg) (nn : Byte) (s : State) : exec (.ldImm x nn) s = .next (s.setReg x nn) := rfl

theorem decodes_ldImm : Decodes 0xF000 0x6000 (fun op => .ldImm (fieldX op) (fieldNN op)) := fun _ h =>
  have row : (0x6000 : Word) = wordFNNN 0x6 0 := by decide
  decode_of_fieldF_eq_six (fieldF_eq_of_and_F000 (h.trans row))

/-- Settles O33: the mask fixes the family nibble, and LD VX, NN is one `setReg`, whose rules treat VF as any other
register. -/
theorem loadImmediateSetsTheRegister : Obligations.LoadImmediateSetsTheRegister :=
  ⟨decodes_ldImm, fun x nn s => ⟨s.setReg x nn, exec_ldImm x nn s, s.reg_setReg_self x nn, s.setReg_onlyChanges x nn⟩⟩

end Machine

end Sys2Proof
end

section
/-! PROOFS. Index and memory: ANNN (43_index_memory R150). -/

namespace Sys2Proof

theorem decode_of_fieldF_eq_A {op : Word} (h : fieldF op = 0xA) : decode op = .ldI (fieldNNN op) := by
  rw [decode, h]; rfl

namespace Machine

open Sys2Proof.Safety

theorem exec_ldI (nnn : Addr) (s : State) : exec (.ldI nnn) s = .next (s.setI (zextAddr nnn)) := rfl

theorem decodes_ldI : Decodes 0xF000 0xA000 (fun op => .ldI (fieldNNN op)) := fun _ h =>
  have row : (0xA000 : Word) = wordFNNN 0xA 0 := by decide
  decode_of_fieldF_eq_A (fieldF_eq_of_and_F000 (h.trans row))

/-- Settles O40: the mask fixes the family nibble, and LD I is one `setI` of the zero-extended immediate, which changes I
alone. -/
theorem loadIndexSetsI : Obligations.LoadIndexSetsI :=
  ⟨decodes_ldI, fun nnn s => ⟨s.setI (zextAddr nnn), exec_ldI nnn s, zextAddr_toNat nnn, s.setI_onlyChanges _⟩⟩

end Machine

end Sys2Proof
end

section
/-! PROOFS. The display: 00E0 (44_display R170) and the collision flag of DXYN (44_display R174). -/

namespace Sys2Proof

namespace Machine

open Sys2Proof.Safety

/-! ### 00E0 -/

theorem exec_cls (s : State) : exec .cls s = .next (s.setDisplay Display.blank) := rfl

theorem decodes_cls : Decodes 0xFFFF 0x00E0 (fun _ => .cls) := by
  intro op h
  have hop : op = 0x00E0 := by rwa [and_FFFF] at h
  subst hop
  decide

/-- Replacing the buffer changes the cells and the dirty flag alone (44_display R178). -/
theorem State.setDisplay_unchanged (s : State) (d : Display) :
    Unchanged (fun p => p = .dirty ∨ IsCell p) s (s.setDisplay d) := by
  intro p hp
  cases p <;> simp_all [Part.Same, IsCell, State.reg, State.held]

/-- Settles O46: the full mask leaves one word, and CLS is one `setDisplay` of the blank buffer. -/
theorem clearBlanksTheDisplay : Obligations.ClearBlanksTheDisplay :=
  ⟨decodes_cls, fun s => ⟨s.setDisplay Display.blank, exec_cls s, Display.cell_blank, s.setDisplay_dirty _,
    s.setDisplay_unchanged _⟩⟩

/-! ### The collision flag of DXYN -/

theorem exec_drw (x y : Reg) (n : Nibble) (s : State) :
    exec (.drw x y n) s = .next (s.showCanvas (s.drawSprite x y n)) := rfl

@[simp] theorem State.reg_showCanvas_vF (s : State) (c : Canvas) : (s.showCanvas c).reg vF = flagByte c.collided :=
  (s.setDisplay c.disp).reg_setReg_self vF _

/-- A draw collides exactly if it takes some cell from 1 to 0: an inverted cell that was set is one that is now clear
(44_display R174). -/
theorem State.drawSprite_collided (s : State) (x y : Reg) (n : Nibble) :
    (s.drawSprite x y n).collided = true ↔
      ∃ cx cy, s.disp.cell cx cy = true ∧ (s.drawSprite x y n).disp.cell cx cy = false := by
  have hk : (List.range n.toNat).Pairwise (· < ·) := List.pairwise_lt_range
  have hcell := Canvas.drawRows_cell ⟨s.disp, false⟩ s s.i (originColumn (s.reg x)) (originRow (s.reg y)) _ hk
  have hcoll := Canvas.drawRows_collided ⟨s.disp, false⟩ s s.i (originColumn (s.reg x)) (originRow (s.reg y)) _ hk
  simp only [State.drawSprite, hcell, hcoll, Bool.false_eq_true, false_or]
  refine exists_congr fun cx => exists_congr fun cy => ?_
  cases s.disp.cell cx cy <;> simp

/-- Settles O48: the canvas holds both the final buffer and the collision bit, VF is the byte of that bit, and the bit is
set exactly if a cell went from 1 to 0. -/
theorem drawFlagsACollision : Obligations.DrawFlagsACollision := by
  intro x y n s
  refine ⟨s.showCanvas (s.drawSprite x y n), exec_drw x y n s, ?_⟩
  rw [State.showCanvas_disp, State.reg_showCanvas_vF, ← State.drawSprite_collided]
  constructor
  · intro h
    simp [flagByte, h]
  · intro h
    simp [flagByte, h]

end Machine

end Sys2Proof
end

section
/-! PROOFS. Keypad and timers: the get-key state machine of FX0A (45_keypad_timer_ops R196), with the frames of the operations
on the get-key sub-state. -/

namespace Sys2Proof

namespace Machine

open Sys2Proof.Safety

/-! ### Frames of the get-key operations -/

/-- One operation after another changes at most what the two list. -/
theorem OnlyChanges.append {ps qs : List Part} {s t u : State} (h : OnlyChanges ps s t) (k : OnlyChanges qs t u) :
    OnlyChanges (ps ++ qs) s u :=
  OnlyChanges.trans (OnlyChanges.mono h fun _ => List.mem_append_left qs)
    (OnlyChanges.mono k fun _ => List.mem_append_right ps)

theorem State.retarget_onlyChanges (s : State) : OnlyChanges [.counter] s s.retarget := s.setPc_onlyChanges _

theorem State.awaitRelease_onlyChanges (s : State) (k : Key) : OnlyChanges [.wait] s (s.awaitRelease k) := by
  intro p hp
  cases p <;> simp_all [Part.Same, State.reg, State.held]

theorem State.stopWaiting_onlyChanges (s : State) : OnlyChanges [.wait] s s.stopWaiting := by
  intro p hp
  cases p <;> simp_all [Part.Same, State.reg, State.held]

theorem State.countDraw_onlyChanges (s : State) : OnlyChanges [.draws] s s.countDraw := by
  intro p hp
  cases p <;> simp_all [Part.Same, State.reg, State.held]

/-! ### The scan of the Idle sub-state -/

theorem State.scanKeys_of_none_held {s : State} (h : ∀ k, s.held k = false) : s.scanKeys = s := by
  obtain ⟨-, hs⟩ | ⟨k, hk, -⟩ := s.scanKeys_cases
  · exact hs
  · exact absurd hk (by simp [h k])

/-- With some key held the scan awaits the release of a held key; whether it draws depends on how many are held
(45_keypad_timer_ops R197). -/
theorem State.scanKeys_of_some_held {s : State} (h : ∃ k, s.held k = true) :
    s.scanKeys.kw = .awaitingRelease ∧ s.held s.scanKeys.kwCand = true ∧ s.scanKeys.pc = s.pc ∧
      OnlyChanges [.wait, .draws] s s.scanKeys := by
  obtain ⟨hnone, -⟩ | ⟨k, hk, hs | hs⟩ := s.scanKeys_cases
  · obtain ⟨k, hk⟩ := h
    exact absurd hk (by simp [hnone k])
  · rw [hs]
    exact ⟨rfl, hk, rfl, OnlyChanges.mono (s.awaitRelease_onlyChanges k) (by simp)⟩
  · rw [hs]
    exact ⟨rfl, hk, rfl, OnlyChanges.append (s.awaitRelease_onlyChanges k) (s.awaitRelease k).countDraw_onlyChanges⟩

/-! ### FX0A -/

theorem exec_ldKey (x : Reg) (s : State) : exec (.ldKey x) s = .next (s.awaitKey x) := rfl

theorem State.awaitKey_of_idle {s : State} (h : s.kw = .idle) (x : Reg) : s.awaitKey x = s.scanKeys.retarget := by
  simp only [State.awaitKey, h]

theorem State.awaitKey_of_cand_held {s : State} (h : s.kw = .awaitingRelease) (hk : s.held s.kwCand = true) (x : Reg) :
    s.awaitKey x = s.retarget := by
  simp only [State.awaitKey, h, hk, if_true]

theorem State.awaitKey_of_cand_released {s : State} (h : s.kw = .awaitingRelease) (hk : s.held s.kwCand = false) (x : Reg) :
    s.awaitKey x = (s.setReg x (keyByte s.kwCand)).stopWaiting := by
  simp [State.awaitKey, h, hk]

theorem keyByte_toNat (k : Key) : (keyByte k).toNat = k.val := by
  have : k.val < 16 := k.isLt
  simp only [keyByte, BitVec.toNat_ofNat]
  omega

/-- Idle with a key held: the scan records it, then pc goes back. -/
theorem State.scanKeys_retarget_onlyChanges {s : State} (h : ∃ k, s.held k = true) :
    OnlyChanges [.wait, .counter, .draws] s s.scanKeys.retarget := by
  obtain ⟨-, -, -, hscan⟩ := State.scanKeys_of_some_held h
  exact OnlyChanges.mono (OnlyChanges.append hscan s.scanKeys.retarget_onlyChanges) (by simp)

/-- AwaitingRelease with the candidate released: VX receives it, then the wait ends. -/
theorem State.deliverKey_onlyChanges (s : State) (x : Reg) (b : Byte) :
    OnlyChanges [.reg x, .wait] s (s.setReg x b).stopWaiting :=
  OnlyChanges.append (s.setReg_onlyChanges x b) (s.setReg x b).stopWaiting_onlyChanges

/-- Settles O53: in Idle the result is the scan followed by `retarget`, and the scan either does nothing or awaits a held key;
in AwaitingRelease it is `retarget` while the candidate is held, and otherwise the delivery to VX. -/
theorem getKeyStateMachine : Obligations.GetKeyStateMachine := by
  intro x s
  refine ⟨s.awaitKey x, exec_ldKey x s, fun hkw hnone => ?_, fun hkw hsome => ?_, fun hkw hheld => ?_, fun hkw hfree => ?_⟩
  · rw [State.awaitKey_of_idle hkw, State.scanKeys_of_none_held hnone]
    exact ⟨s.retarget_pc, s.retarget_onlyChanges⟩
  · rw [State.awaitKey_of_idle hkw]
    obtain ⟨hwait, hcand, hpc, -⟩ := State.scanKeys_of_some_held hsome
    exact ⟨hwait, hcand, congrArg (· - 2) hpc, State.scanKeys_retarget_onlyChanges hsome⟩
  · rw [State.awaitKey_of_cand_held hkw hheld]
    exact ⟨s.retarget_pc, s.retarget_onlyChanges⟩
  · rw [State.awaitKey_of_cand_released hkw hfree]
    have hreg : (s.setReg x (keyByte s.kwCand)).stopWaiting.reg x = keyByte s.kwCand := s.reg_setReg_self x _
    exact ⟨by rw [hreg, keyByte_toNat], rfl, rfl, rfl, s.deliverKey_onlyChanges x _⟩

end Machine

end Sys2Proof
end

section
/-! PROOFS. Exceptions: what a frame does to the two timers (60_exceptions R222, R224). -/

namespace Sys2Proof

namespace Machine

open Sys2Proof.Safety

/-- Without a fault the end of a frame decrements both timers. -/
theorem State.endFrame_timers_of_no_fault {s : State} (h : s.fault = none) :
    s.endFrame.dt = countDown s.dt ∧ s.endFrame.st = countDown s.st := by
  simp [State.endFrame, h]

/-- With a fault recorded the end of a frame keeps both timers. -/
theorem State.endFrame_timers_of_fault {s : State} (h : s.fault ≠ none) :
    s.endFrame.dt = s.dt ∧ s.endFrame.st = s.st := by
  simp [State.endFrame, h]

/-- Settles O10: a cycle inside the frame only counts itself, and the frame's last cycle hands over to `endFrame`, which
decrements the timers unless a fault is recorded. -/
theorem timersCountDownOncePerFrame : Obligations.TimersCountDownOncePerFrame := by
  intro s
  obtain ⟨hin, hs⟩ | ⟨hlast, hs⟩ := s.leaveCycle_cases
  · rw [hs]
    exact ⟨fun _ => ⟨rfl, rfl⟩, fun hlast => absurd hin hlast, fun _ => ⟨rfl, rfl⟩⟩
  · rw [hs]
    refine ⟨fun hin => absurd hin hlast, fun _ hok => ?_, State.endFrame_timers_of_fault⟩
    obtain ⟨hdt, hst⟩ := State.endFrame_timers_of_no_fault hok
    rw [hdt, hst]
    exact ⟨countDown_toNat s.dt, countDown_toNat s.st⟩

end Machine

end Sys2Proof
end

section
/-! PROOFS. Reset: when launch leaves no initial state (70_reset_and_hazards R247). -/

namespace Sys2Proof

namespace Machine

@[simp] theorem launch_none (config : Config) (font : Vector Byte 80) (inputs : List HostFrame) :
    launch config font inputs none = .refused .romMissing := rfl

theorem launch_of_oversized {rom : List Byte} (h : maxRomLength < rom.length)
    (config : Config) (font : Vector Byte 80) (inputs : List HostFrame) :
    launch config font inputs (some rom) = .refused .romTooLarge :=
  if_neg (Nat.not_le_of_gt h)

/-- Settles O24: launch answers a missing ROM with its own refusal, and the bound it tests is 4096 - 512. -/
theorem launchRefusesAMissingOrOversizedRom : Obligations.LaunchRefusesAMissingOrOversizedRom := by
  intro config font inputs
  exact ⟨launch_none config font inputs, fun rom hlong => launch_of_oversized hlong config font inputs⟩

end Machine

end Sys2Proof
end

section
/-! PROOFS. The decoder and the encoder are inverse to each other, and the rows of the decode table say which words decode to
what (30_encoding R75, R76, R81). -/

namespace Sys2Proof

open Sys2Proof.Safety

/-! ### The families that hold reserved words -/

theorem decode_of_fieldF_eq_zero {op : Word} (h : fieldF op = 0x0) : decode op = decodeFamily0 op := by
  rw [decode, h]; rfl

theorem decode_of_fieldF_eq_five {op : Word} (h : fieldF op = 0x5) : decode op =
    if fieldN op = 0 then .seReg (fieldX op) (fieldY op) else .reserved5 (fieldX op) (fieldY op) (fieldN op) := by
  rw [decode, h]; rfl

theorem decode_of_fieldF_eq_eight {op : Word} (h : fieldF op = 0x8) : decode op = decodeFamily8 op := by
  rw [decode, h]; rfl

theorem decode_of_fieldF_eq_nine {op : Word} (h : fieldF op = 0x9) : decode op =
    if fieldN op = 0 then .sneReg (fieldX op) (fieldY op) else .reserved9 (fieldX op) (fieldY op) (fieldN op) := by
  rw [decode, h]; rfl

theorem decode_of_fieldF_eq_E {op : Word} (h : fieldF op = 0xE) : decode op = decodeFamilyE op := by
  rw [decode, h]; rfl

theorem decode_of_fieldF_eq_F {op : Word} (h : fieldF op = 0xF) : decode op = decodeFamilyF op := by
  rw [decode, h]; rfl

/-! ### Decoding what was encoded -/

theorem mem_of_toNat_eq {w k : Nat} {a : BitVec w} {l : List (BitVec w)} (h : a.toNat = k) (hk : BitVec.ofNat w k ∈ l) :
    a ∈ l := by
  rwa [← h, BitVec.ofNat_toNat, BitVec.setWidth_eq] at hk

theorem decodeFamily8_of_not_mem {op : Word} (h : fieldN op ∉ family8Subops) :
    decodeFamily8 op = .reserved8 (fieldX op) (fieldY op) (fieldN op) := by
  unfold decodeFamily8
  split
  case h_10 => rfl
  all_goals exact absurd (mem_of_toNat_eq ‹_› (by decide)) h

theorem decodeFamilyE_of_not_mem {op : Word} (h : fieldNN op ∉ familyESubops) :
    decodeFamilyE op = .reservedE (fieldX op) (fieldNN op) := by
  unfold decodeFamilyE
  split
  case h_3 => rfl
  all_goals exact absurd (mem_of_toNat_eq ‹_› (by decide)) h

theorem decodeFamilyF_of_not_mem {op : Word} (h : fieldNN op ∉ familyFSubops) :
    decodeFamilyF op = .reservedF (fieldX op) (fieldNN op) := by
  unfold decodeFamilyF
  split
  case h_10 => rfl
  all_goals exact absurd (mem_of_toNat_eq ‹_› (by decide)) h

/-- Settles O1: the fields of an encoded word are the operands it was built from. For a defined instruction the family and the
sub-operation select its row; a reserved word is well formed exactly if no test of its family's decoder succeeds. -/
theorem decodeOfEncodeIsTheInstruction : Obligations.DecodeOfEncodeIsTheInstruction := by
  intro i hwf
  cases i with
  | reserved0 nnn =>
    obtain ⟨hcls, hret⟩ : nnn ≠ 0x0E0 ∧ nnn ≠ 0x0EE := by simpa [Instr.WellFormed] using hwf
    simp only [encode]
    rw [decode_of_fieldF_eq_zero (fieldF_wordFNNN _ _), decodeFamily0, fieldNNN_wordFNNN, if_neg hcls, if_neg hret]
  | reserved5 x y n =>
    have hn : n ≠ 0 := by simpa [Instr.WellFormed] using hwf
    simp only [encode]
    rw [decode_of_fieldF_eq_five (fieldF_wordFXYN _ _ _ _), fieldN_wordFXYN, if_neg hn, fieldX_wordFXYN, fieldY_wordFXYN]
  | reserved8 x y n =>
    have hn : n ∉ family8Subops := by simpa [Instr.WellFormed] using hwf
    simp only [encode]
    rw [decode_of_fieldF_eq_eight (fieldF_wordFXYN _ _ _ _), decodeFamily8_of_not_mem (by rwa [fieldN_wordFXYN]),
      fieldN_wordFXYN, fieldX_wordFXYN, fieldY_wordFXYN]
  | reserved9 x y n =>
    have hn : n ≠ 0 := by simpa [Instr.WellFormed] using hwf
    simp only [encode]
    rw [decode_of_fieldF_eq_nine (fieldF_wordFXYN _ _ _ _), fieldN_wordFXYN, if_neg hn, fieldX_wordFXYN, fieldY_wordFXYN]
  | reservedE x nn =>
    have hnn : nn ∉ familyESubops := by simpa [Instr.WellFormed] using hwf
    simp only [encode]
    rw [decode_of_fieldF_eq_E (fieldF_wordFXNN _ _ _), decodeFamilyE_of_not_mem (by rwa [fieldNN_wordFXNN]),
      fieldNN_wordFXNN, fieldX_wordFXNN]
  | reservedF x nn =>
    have hnn : nn ∉ familyFSubops := by simpa [Instr.WellFormed] using hwf
    simp only [encode]
    rw [decode_of_fieldF_eq_F (fieldF_wordFXNN _ _ _), decodeFamilyF_of_not_mem (by rwa [fieldNN_wordFXNN]),
      fieldNN_wordFXNN, fieldX_wordFXNN]
  | cls => rfl
  | ret => rfl
  | _ => simp [encode, decode, decodeFamily8, decodeFamilyE, decodeFamilyF]

/-! ### Encoding what was decoded -/

/-- `i` is a well-formed instruction whose word is `op`. -/
def IsInstrOf (op : Word) (i : Instr) : Prop := i.WellFormed = true ∧ encode i = op

theorem wordFNNN_eq_of_fields {op : Word} {f : Nibble} (hf : fieldF op = f) : wordFNNN f (fieldNNN op) = op := by
  rw [← hf, wordFNNN_fields]

theorem wordFXNN_eq_of_fields {op : Word} {f : Nibble} {nn : Byte} (hf : fieldF op = f) (hnn : fieldNN op = nn) :
    wordFXNN f (fieldX op) nn = op := by
  rw [← hf, ← hnn, wordFXNN_fields]

theorem wordFXYN_eq_of_fields {op : Word} {f n : Nibble} (hf : fieldF op = f) (hn : fieldN op = n) :
    wordFXYN f (fieldX op) (fieldY op) n = op := by
  rw [← hf, ← hn, wordFXYN_fields]

theorem isInstrOf_decodeFamily0 {op : Word} (hf : fieldF op = 0x0) : IsInstrOf op (decodeFamily0 op) := by
  have hop := wordFNNN_eq_of_fields hf
  unfold decodeFamily0
  split_ifs with hcls hret
  · rw [hcls] at hop
    exact ⟨rfl, hop⟩
  · rw [hret] at hop
    exact ⟨rfl, hop⟩
  · exact ⟨by simpa [Instr.WellFormed] using ⟨hcls, hret⟩, hop⟩

theorem isInstrOf_decodeFamily8 {op : Word} (hf : fieldF op = 0x8) : IsInstrOf op (decodeFamily8 op) := by
  unfold decodeFamily8
  split
  case h_10 => exact ⟨by simp_all [Instr.WellFormed, family8Subops, BitVec.toNat_eq], wordFXYN_eq_of_fields hf rfl⟩
  all_goals exact ⟨rfl, wordFXYN_eq_of_fields hf (BitVec.eq_of_toNat_eq ‹_›)⟩

theorem isInstrOf_decodeFamilyE {op : Word} (hf : fieldF op = 0xE) : IsInstrOf op (decodeFamilyE op) := by
  unfold decodeFamilyE
  split
  case h_3 => exact ⟨by simp_all [Instr.WellFormed, familyESubops, BitVec.toNat_eq], wordFXNN_eq_of_fields hf rfl⟩
  all_goals exact ⟨rfl, wordFXNN_eq_of_fields hf (BitVec.eq_of_toNat_eq ‹_›)⟩

theorem isInstrOf_decodeFamilyF {op : Word} (hf : fieldF op = 0xF) : IsInstrOf op (decodeFamilyF op) := by
  unfold decodeFamilyF
  split
  case h_10 => exact ⟨by simp_all [Instr.WellFormed, familyFSubops, BitVec.toNat_eq], wordFXNN_eq_of_fields hf rfl⟩
  all_goals exact ⟨rfl, wordFXNN_eq_of_fields hf (BitVec.eq_of_toNat_eq ‹_›)⟩

theorem isInstrOf_decode (op : Word) : IsInstrOf op (decode op) := by
  unfold decode
  split
  case h_1 h => exact isInstrOf_decodeFamily0 (BitVec.eq_of_toNat_eq h)
  case h_9 h => exact isInstrOf_decodeFamily8 (BitVec.eq_of_toNat_eq h)
  case h_15 h => exact isInstrOf_decodeFamilyE (BitVec.eq_of_toNat_eq h)
  case h_16 =>
    have hF : (fieldF op).toNat = 0xF := by
      have hlt := (fieldF op).isLt
      simp only [imp_false] at *
      omega
    exact isInstrOf_decodeFamilyF (BitVec.eq_of_toNat_eq hF)
  case h_6 h | h_10 h =>
    split_ifs with hn
    · exact ⟨rfl, wordFXYN_eq_of_fields (BitVec.eq_of_toNat_eq h) hn⟩
    · exact ⟨by simpa [Instr.WellFormed] using hn, wordFXYN_eq_of_fields (BitVec.eq_of_toNat_eq h) rfl⟩
  case h_14 h => exact ⟨rfl, wordFXYN_eq_of_fields (BitVec.eq_of_toNat_eq h) rfl⟩
  case h_2 h | h_3 h | h_11 h | h_12 h => exact ⟨rfl, wordFNNN_eq_of_fields (BitVec.eq_of_toNat_eq h)⟩
  case h_4 h | h_5 h | h_7 h | h_8 h | h_13 h => exact ⟨rfl, wordFXNN_eq_of_fields (BitVec.eq_of_toNat_eq h) rfl⟩

/-- Settles O2: in each branch of the decoder the tests passed fix the fields that the instruction does not hold, and a
word is rebuilt from its fields. -/
theorem encodeOfDecodeIsTheWord : Obligations.EncodeOfDecodeIsTheWord := isInstrOf_decode

theorem encode_decode (op : Word) : encode (decode op) = op := (isInstrOf_decode op).2

theorem decode_wellFormed (op : Word) : (decode op).WellFormed = true := (isInstrOf_decode op).1

/-! ### The rows of the decode table -/

open Laws.EncodesItsRow in
theorem encodesItsRow : ∀ i : Instr, Statement i
  | .cls => cls | .ret => ret | .jp nnn => jp nnn | .call nnn => call nnn | .seImm x nn => seImm x nn
  | .sneImm x nn => sneImm x nn | .seReg x y => seReg x y | .ldImm x nn => ldImm x nn | .addImm x nn => addImm x nn
  | .ldReg x y => ldReg x y | .orReg x y => orReg x y | .andReg x y => andReg x y | .xorReg x y => xorReg x y
  | .addReg x y => addReg x y | .subReg x y => subReg x y | .shr x y => shr x y | .subn x y => subn x y
  | .shl x y => shl x y | .sneReg x y => sneReg x y | .ldI nnn => ldI nnn | .jpV0 nnn => jpV0 nnn | .rnd x nn => rnd x nn
  | .drw x y n => drw x y n | .skp x => skp x | .sknp x => sknp x | .ldFromDT x => ldFromDT x | .ldKey x => ldKey x
  | .ldDT x => ldDT x | .ldST x => ldST x | .addI x => addI x | .ldFont x => ldFont x | .ldBcd x => ldBcd x
  | .storeRegs x => storeRegs x | .loadRegs x => loadRegs x | .reserved0 nnn => reserved0 nnn
  | .reserved5 x y n => reserved5 x y n | .reserved8 x y n => reserved8 x y n | .reserved9 x y n => reserved9 x y n
  | .reservedE x nn => reservedE x nn | .reservedF x nn => reservedF x nn

/-- A word that decodes to an instruction of a row matches the row: it is that instruction's encoding. -/
theorem match_of_rowOf_decode {op : Word} {row : Word × Word} (h : rowOf (decode op) = some row) :
    op &&& row.1 = row.2 := by
  have henc := encodesItsRow (decode op) (decode_wellFormed op)
  rwa [h, encode_decode] at henc

/-- The families that are one row each: the decoder tests no other field. -/
def wholeFamilies : List Nibble := [0x1, 0x2, 0x3, 0x4, 0x6, 0x7, 0xA, 0xB, 0xC, 0xD]

theorem rowOf_decode_of_fieldF {op q : Word} (hF : fieldF op = fieldF q) (hq : fieldF q ∈ wholeFamilies) :
    rowOf (decode op) = rowOf (decode q) := by
  simp only [wholeFamilies, List.mem_cons, List.not_mem_nil, or_false] at hq
  rcases hq with hq | hq | hq | hq | hq | hq | hq | hq | hq | hq <;> simp [decode, hF, hq, rowOf]

theorem rowOf_decode_of_fieldN {op q : Word} (hF : fieldF op = fieldF q) (hN : fieldN op = fieldN q)
    (hq : fieldF q ∈ [(0x5 : Nibble), 0x8, 0x9]) : rowOf (decode op) = rowOf (decode q) := by
  simp only [List.mem_cons, List.not_mem_nil, or_false] at hq
  rcases hq with hq | hq | hq
  · rw [decode_of_fieldF_eq_five hq, decode_of_fieldF_eq_five (hF.trans hq), hN]
    split <;> rfl
  · rw [decode_of_fieldF_eq_eight hq, decode_of_fieldF_eq_eight (hF.trans hq), decodeFamily8, decodeFamily8, hN]
    split <;> rfl
  · rw [decode_of_fieldF_eq_nine hq, decode_of_fieldF_eq_nine (hF.trans hq), hN]
    split <;> rfl

theorem rowOf_decode_of_fieldNN {op q : Word} (hF : fieldF op = fieldF q) (hNN : fieldNN op = fieldNN q)
    (hq : fieldF q ∈ [(0xE : Nibble), 0xF]) : rowOf (decode op) = rowOf (decode q) := by
  simp only [List.mem_cons, List.not_mem_nil, or_false] at hq
  rcases hq with hq | hq
  · rw [decode_of_fieldF_eq_E hq, decode_of_fieldF_eq_E (hF.trans hq), decodeFamilyE, decodeFamilyE, hNN]
    split <;> rfl
  · rw [decode_of_fieldF_eq_F hq, decode_of_fieldF_eq_F (hF.trans hq), decodeFamilyF, decodeFamilyF, hNN]
    split <;> rfl

/-- The mask of a row lets through the fields that the decoder of its family tests. -/
theorem definedRows_masks : ∀ row ∈ definedRows, row.1 = 0xFFFF ∨ row.1 = 0xF000 ∧ fieldF row.2 ∈ wholeFamilies ∨
    row.1 = 0xF00F ∧ fieldF row.2 ∈ [(0x5 : Nibble), 0x8, 0x9] ∨ row.1 = 0xF0FF ∧ fieldF row.2 ∈ [(0xE : Nibble), 0xF] := by
  simp [definedRows, wholeFamilies, fieldF]

/-- The match of a row is itself a word of the row, and decodes to an instruction of it. -/
theorem definedRows_match : ∀ row ∈ definedRows, row.2 &&& row.1 = row.2 ∧ rowOf (decode row.2) = some row := by
  simp [definedRows, decode, decodeFamily0, decodeFamily8, decodeFamilyE, decodeFamilyF, fieldF, fieldN, fieldNN, fieldNNN,
    rowOf]

theorem rowOf_mem {i : Instr} {row : Word × Word} (h : rowOf i = some row) : row ∈ definedRows := by
  cases i <;> cases h <;> simp [definedRows]

theorem rowOf_decode_of_match {op : Word} {row : Word × Word} (hrow : row ∈ definedRows) (h : op &&& row.1 = row.2) :
    rowOf (decode op) = some row := by
  obtain ⟨hself, hdec⟩ := definedRows_match row hrow
  rw [← hdec]
  have hmask : op &&& row.1 = row.2 &&& row.1 := h.trans hself.symm
  obtain hm | ⟨hm, hq⟩ | ⟨hm, hq⟩ | ⟨hm, hq⟩ := definedRows_masks row hrow <;> rw [hm] at hmask
  · rw [and_FFFF, and_FFFF] at hmask
    rw [hmask]
  · rw [and_F000, and_F000] at hmask
    exact rowOf_decode_of_fieldF (by simpa using congrArg fieldF hmask) hq
  · rw [and_F00F, and_F00F] at hmask
    exact rowOf_decode_of_fieldN (by simpa using congrArg fieldF hmask) (by simpa using congrArg fieldN hmask) hq
  · rw [and_F0FF, and_F0FF] at hmask
    exact rowOf_decode_of_fieldNN (by simpa using congrArg fieldF hmask) (by simpa using congrArg fieldNN hmask) hq

/-- Settles O3: the word of an instruction matches its row, and a word that matches a row agrees with the row's own match on
the fields that the decoder tests. -/
theorem decodeSelectsTheMatchingRow : Obligations.DecodeSelectsTheMatchingRow := by
  intro op
  have hiff : ∀ row ∈ definedRows, op &&& row.1 = row.2 ↔ rowOf (decode op) = some row :=
    fun row hrow => ⟨rowOf_decode_of_match hrow, match_of_rowOf_decode⟩
  refine ⟨hiff, fun hnone row hrow hmatch => ?_, fun hno => ?_⟩
  · rw [(hiff row hrow).mp hmatch] at hnone
    exact absurd hnone (by simp)
  · by_contra hsome
    obtain ⟨row, hrow⟩ := Option.ne_none_iff_exists'.mp hsome
    exact hno row (rowOf_mem hrow) (match_of_rowOf_decode hrow)

/-- Settles O4: the decoder computes each of the words. -/
theorem specWordsDecodeAsTheSpecSays : Obligations.SpecWordsDecodeAsTheSpecSays := by
  refine ⟨?_, ?_, ?_, ?_, ?_, ?_, ?_, ?_, ?_, ?_, ?_⟩ <;> decide

end Sys2Proof
end

section
/-! PROOFS. What every instruction may change (10_state R20-R33; files 41-45): the frame of each operation, then of each
instruction. -/

namespace Sys2Proof

namespace Machine

open Sys2Proof.Safety

/-! ### Unchanged pieces -/

theorem Unchanged.mono {c d : Part → Prop} {s t : State} (h : Unchanged c s t) (hcd : ∀ p, c p → d p) :
    Unchanged d s t := fun p hp => h p (mt (hcd p) hp)

theorem Unchanged.refl (c : Part → Prop) (s : State) : Unchanged c s s := by
  intro p _
  cases p <;> simp [Part.Same]

theorem Unchanged.trans {c : Part → Prop} {s t u : State} (h : Unchanged c s t) (k : Unchanged c t u) :
    Unchanged c s u := by
  intro p hp
  have h := h p hp
  have k := k p hp
  cases p <;> simp_all only [Part.Same, and_self]

/-! ### The frames of the operations -/

theorem State.setDt_onlyChanges (s : State) (b : Byte) : OnlyChanges [.delay] s (s.setDt b) := by
  intro p hp
  cases p <;> simp_all [Part.Same, State.reg, State.held]

theorem State.setSt_onlyChanges (s : State) (b : Byte) : OnlyChanges [.sound] s (s.setSt b) := by
  intro p hp
  cases p <;> simp_all [Part.Same, State.reg, State.held]

theorem State.setLogicResult_of_reset {s : State} (h : s.config.quirks.quirkVfReset = true) (x : Reg) (r : Byte) :
    s.setLogicResult x r = s.setRegThenFlag x r 0 := if_pos h

theorem State.setLogicResult_of_no_reset {s : State} (h : s.config.quirks.quirkVfReset = false) (x : Reg) (r : Byte) :
    s.setLogicResult x r = s.setReg x r := if_neg (by simp [h])

/-- The logic instructions write VF only under their option (42_alu R124). -/
theorem State.setLogicResult_unchanged (s : State) (x : Reg) (r : Byte) :
    Unchanged (fun p => p = .reg x ∨ s.config.quirks.quirkVfReset = true ∧ p = .reg vF) s (s.setLogicResult x r) := by
  cases h : s.config.quirks.quirkVfReset with
  | false =>
    rw [State.setLogicResult_of_no_reset h]
    exact Unchanged.mono (s.setReg_onlyChanges x r) (by simp)
  | true =>
    rw [State.setLogicResult_of_reset h]
    exact Unchanged.mono (s.setRegThenFlag_onlyChanges x r 0) (by simp)

theorem State.callTo_onlyChanges {s : State} (h : s.sp.val < 16) (w : Word) :
    OnlyChanges [.slot ⟨s.sp.val, h⟩, .depth, .counter] s (s.callTo w) := by
  rw [State.callTo_of_lt h]
  intro p hp
  cases p with
  | slot k =>
    have hk : s.sp.val ≠ k.val := fun e => hp (by simp [e])
    exact Vector.getElem_set_ne h k.isLt hk
  | _ => simp_all [Part.Same, State.reg, State.held]

theorem State.returnFromCall_onlyChanges {s : State} (h : s.sp.val ≠ 0) :
    OnlyChanges [.depth, .counter] s s.returnFromCall := by
  obtain ⟨k, hk⟩ := Nat.exists_eq_succ_of_ne_zero h
  rw [State.returnFromCall_of_succ (by omega) hk]
  intro p hp
  cases p <;> simp_all [Part.Same, State.reg, State.held]

theorem State.showCanvas_unchanged (s : State) (c : Canvas) :
    Unchanged (fun p => p ∈ [Part.reg vF, .dirty] ∨ IsCell p) s (s.showCanvas c) :=
  Unchanged.trans (Unchanged.mono (s.setDisplay_unchanged c.disp) fun p hp => by
      rcases hp with rfl | hp
      · simp
      · exact .inr hp)
    (Unchanged.mono ((s.setDisplay c.disp).setReg_onlyChanges vF _) fun p hp => .inl (by simp_all))

theorem State.advanceIndexIf_unchanged (s : State) (q : Bool) (x : Reg) :
    Unchanged (fun p => q = true ∧ p = .index) s (s.advanceIndexIf q x) := by
  cases q with
  | false => exact Unchanged.refl _ s
  | true => exact Unchanged.mono (s.setI_onlyChanges _) (by simp)

theorem State.readInto_unchanged (s : State) (a : Word) (rs : List Reg) :
    Unchanged (fun p => ∃ r ∈ rs, p = .reg r) s (s.readInto a rs) := by
  induction rs generalizing s a with
  | nil => exact Unchanged.refl _ s
  | cons r rs ih =>
    exact Unchanged.trans (Unchanged.mono (s.setReg_onlyChanges r _) (by simp))
      (Unchanged.mono (ih _ _) fun _ ⟨q, hq, hp⟩ => ⟨q, List.mem_cons_of_mem r hq, hp⟩)

/-! ### FX0A, from its state machine (45_keypad_timer_ops R196) -/

theorem State.awaitKey_unchanged (s : State) (x : Reg) : Unchanged (Writes (.ldKey x) s) s (s.awaitKey x) := by
  obtain ⟨t, ht, hnone, hsome, hheld, hfree⟩ := getKeyStateMachine x s
  obtain rfl : s.awaitKey x = t := by simpa [exec_ldKey] using ht
  cases hkw : s.kw with
  | idle =>
    have hw : Writes (.ldKey x) s = (· ∈ [Part.counter, .wait, .draws]) := by
      funext p
      simp [Writes, hkw]
    rw [hw]
    by_cases hk : ∃ k, s.held k = true
    · obtain ⟨-, -, -, hframe⟩ := hsome hkw hk
      exact OnlyChanges.mono hframe (by simp)
    · obtain ⟨-, hframe⟩ := hnone hkw (by simpa using hk)
      exact OnlyChanges.mono hframe (by simp)
  | awaitingRelease =>
    have hw : Writes (.ldKey x) s = (· ∈ [Part.counter, .wait, .reg x]) := by
      funext p
      simp [Writes, hkw]
    rw [hw]
    cases hc : s.held s.kwCand with
    | true =>
      obtain ⟨-, hframe⟩ := hheld hkw hc
      exact OnlyChanges.mono hframe (by simp)
    | false =>
      obtain ⟨-, -, -, -, hframe⟩ := hfree hkw hc
      exact OnlyChanges.mono hframe (by simp)

/-! ### The call stack -/

theorem State.callTo_unchanged (s : State) (nnn : Addr) : Unchanged (Writes (.call nnn) s) s (s.callTo (zextAddr nnn)) := by
  by_cases h : s.sp.val < 16
  · exact Unchanged.mono (State.callTo_onlyChanges h _) fun p hp => by simpa only [Writes, dif_pos h] using hp
  · rw [State.callTo_of_full (by omega)]
    exact Unchanged.mono (s.raiseFault_onlyChanges _) fun p hp => by simpa only [Writes, dif_neg h] using hp

theorem State.returnFromCall_unchanged (s : State) : Unchanged (Writes .ret s) s s.returnFromCall := by
  by_cases h : s.sp.val = 0
  · rw [State.returnFromCall_of_zero h]
    exact Unchanged.mono (s.raiseFault_onlyChanges _) fun p hp => by simpa only [Writes, if_pos h] using hp
  · exact Unchanged.mono (State.returnFromCall_onlyChanges h) fun p hp => by simpa only [Writes, if_neg h] using hp

/-! ### FX55 and FX65 -/

/-- The state after FX55 (43_index_memory R157, R158). -/
def State.storeRegs (s : State) (x : Reg) : State :=
  (s.writeBytes s.i ((regsThrough x).map s.reg)).advanceIndexIf s.config.quirks.quirkStoreAdvancesI x

/-- The state after FX65 (43_index_memory R159, R160). -/
def State.loadRegs (s : State) (x : Reg) : State :=
  (s.readInto s.i (regsThrough x)).advanceIndexIf s.config.quirks.quirkLoadAdvancesI x

theorem exec_storeRegs (x : Reg) (s : State) : exec (.storeRegs x) s = .next (s.storeRegs x) := rfl

theorem exec_loadRegs (x : Reg) (s : State) : exec (.loadRegs x) s = .next (s.loadRegs x) := rfl

theorem State.storeRegs_unchanged (s : State) (x : Reg) : Unchanged (Writes (.storeRegs x) s) s (s.storeRegs x) := by
  have hstore := s.writeBytes_onlyChanges ((regsThrough x).map s.reg)
  rw [List.length_map, regsThrough_length] at hstore
  exact Unchanged.trans (Unchanged.mono hstore fun _ => .inl)
    (Unchanged.mono (State.advanceIndexIf_unchanged _ _ x) fun _ => .inr)

theorem State.loadRegs_unchanged (s : State) (x : Reg) : Unchanged (Writes (.loadRegs x) s) s (s.loadRegs x) :=
  Unchanged.trans
    (Unchanged.mono (s.readInto_unchanged s.i (regsThrough x)) fun _ ⟨r, hr, hp⟩ =>
      .inl ⟨r, (mem_regsThrough x r).mp hr, hp⟩)
    (Unchanged.mono (State.advanceIndexIf_unchanged _ _ x) fun _ => .inr)

/-! ### Every instruction -/

/-- Settles O57: each instruction is one operation, or two in a row, and the frames of the operations lie within the pieces
listed for it. -/
theorem instructionsChangeOnlyWhatTheSpecNames : Obligations.InstructionsChangeOnlyWhatTheSpecNames := by
  intro i s
  cases i with
  | cls => exact ⟨_, exec_cls s, s.setDisplay_unchanged _⟩
  | ret => exact ⟨_, rfl, s.returnFromCall_unchanged⟩
  | call nnn => exact ⟨_, rfl, s.callTo_unchanged nnn⟩
  | jp _ | jpV0 _ => exact ⟨_, rfl, Unchanged.mono (s.setPc_onlyChanges _) (by simp [Writes])⟩
  | seImm _ _ | sneImm _ _ | seReg _ _ | sneReg _ _ | skp _ | sknp _ =>
    exact ⟨_, rfl, Unchanged.mono (s.skipIf_onlyChanges _) (by simp [Writes])⟩
  | ldImm x _ | addImm x _ | ldReg x _ | ldFromDT x =>
    exact ⟨_, rfl, Unchanged.mono (s.setReg_onlyChanges x _) (by simp [Writes])⟩
  | orReg x _ | andReg x _ | xorReg x _ => exact ⟨_, rfl, s.setLogicResult_unchanged x _⟩
  | addReg x _ | subReg x _ | shr x _ | subn x _ | shl x _ => exact ⟨_, rfl, s.setRegThenFlag_onlyChanges x _ _⟩
  | ldI _ | addI _ | ldFont _ => exact ⟨_, rfl, Unchanged.mono (s.setI_onlyChanges _) (by simp [Writes])⟩
  | rnd x _ => exact ⟨_, rfl, OnlyChanges.append (s.setReg_onlyChanges x _) (State.countDraw_onlyChanges _)⟩
  | drw x y n => exact ⟨_, exec_drw x y n s, s.showCanvas_unchanged _⟩
  | ldKey x => exact ⟨_, exec_ldKey x s, s.awaitKey_unchanged x⟩
  | ldDT _ => exact ⟨_, rfl, Unchanged.mono (s.setDt_onlyChanges _) (by simp [Writes])⟩
  | ldST _ => exact ⟨_, rfl, Unchanged.mono (s.setSt_onlyChanges _) (by simp [Writes])⟩
  | ldBcd x => exact ⟨_, rfl, s.writeBytes_onlyChanges (bcdDigits (s.reg x))⟩
  | storeRegs x => exact ⟨_, exec_storeRegs x s, s.storeRegs_unchanged x⟩
  | loadRegs x => exact ⟨_, exec_loadRegs x s, s.loadRegs_unchanged x⟩
  | reserved0 _ | reserved5 _ _ _ | reserved8 _ _ _ | reserved9 _ _ _ | reservedE _ _ | reservedF _ _ =>
    exact ⟨_, rfl, Unchanged.refl _ s⟩

end Machine

end Sys2Proof
end

section
/-! PROOFS. What one step can do (40_execution R90-R96), and the invariants that every step keeps (20_memory R50; 10_state R32;
60_exceptions R224). -/

namespace Sys2Proof

namespace Machine

open Sys2Proof.Safety

/-! ### One instruction -/

theorem exec_next (i : Instr) (s : State) : ∃ t, exec i s = .next t := by
  obtain ⟨t, ht, -⟩ := instructionsChangeOnlyWhatTheSpecNames i s
  exact ⟨t, ht⟩

/-- An instruction keeps every piece that is not listed for it. -/
theorem exec_same {i : Instr} {s t : State} (h : exec i s = .next t) {p : Part} (hp : ¬ Writes i s p) : p.Same s t := by
  obtain ⟨u, hu, hframe⟩ := instructionsChangeOnlyWhatTheSpecNames i s
  obtain rfl : u = t := Host.Outcome.next.inj (hu.symm.trans h)
  exact hframe p hp

theorem exec_config {i : Instr} {s t : State} (h : exec i s = .next t) : t.config = s.config :=
  exec_same h (p := .config) (by cases i <;> simp [Writes, IsCell, bytesFromI])

theorem exec_cycle {i : Instr} {s t : State} (h : exec i s = .next t) : t.cycle = s.cycle :=
  exec_same h (p := .position) (by cases i <;> simp [Writes, IsCell, bytesFromI])

theorem exec_kw_of_not_ldKey {i : Instr} {s t : State} (h : exec i s = .next t) (hi : ∀ x, i ≠ .ldKey x) : t.kw = s.kw := by
  have hw : ¬ Writes i s .wait := by
    cases i with
    | ldKey x => exact absurd rfl (hi x)
    | _ => simp [Writes, IsCell, bytesFromI]
  exact (exec_same h hw).1

/-- Memory is kept, or bytes are stored from I upwards (20_memory R54-R56). -/
theorem exec_mem {i : Instr} {s t : State} (h : exec i s = .next t) :
    t.mem = s.mem ∨ ∃ bs, t.mem = (s.writeBytes s.i bs).mem := by
  cases i with
  | ldBcd x =>
    obtain rfl := Host.Outcome.next.inj h
    exact .inr ⟨bcdDigits (s.reg x), rfl⟩
  | storeRegs x =>
    obtain rfl := Host.Outcome.next.inj h
    exact .inr ⟨(regsThrough x).map s.reg, State.advanceIndexIf_mem _ _ x⟩
  | reserved0 _ | reserved5 _ _ _ | reserved8 _ _ _ | reserved9 _ _ _ | reservedE _ _ | reservedF _ _ =>
    obtain rfl := Host.Outcome.next.inj h
    exact .inl rfl
  | _ =>
    obtain rfl := Host.Outcome.next.inj h
    exact .inl (by simp)

theorem exec_mem_wf {i : Instr} {s t : State} (h : exec i s = .next t) (hwf : s.mem.wf) : t.mem.wf := by
  obtain hmem | ⟨bs, hmem⟩ := exec_mem h
  · rwa [hmem]
  · rw [hmem]
    exact State.writeBytes_wf hwf s.i bs

/-! ### One step -/

/-- What a step that answers `t` was: a halted frame, a cycle that does nothing, or the execution of the fetched word. -/
theorem step_eq_next_cases {s t : State} (h : step s = .next t) :
    (s.fault ≠ none ∧ s.cycle = 0 ∧ t = s) ∨
    ((s.fault ≠ none ∧ s.cycle ≠ 0 ∨ s.fault = none ∧ s.config.cyclesPerFrame = 0) ∧ t = s.enterFrame.leaveCycle) ∨
    (s.fault = none ∧ 0 < s.config.cyclesPerFrame ∧
      ∃ u, exec (decode s.fetchWord) s.enterFrame.advance = .next u ∧ t = u.leaveCycle) := by
  obtain ⟨hf, hc, hs⟩ | ⟨hwhy, hs⟩ | ⟨hf, hn, hs⟩ := step_cases s
  · exact .inl ⟨hf, hc, Host.Outcome.next.inj (h.symm.trans hs)⟩
  · exact .inr (.inl ⟨hwhy, Host.Outcome.next.inj (h.symm.trans hs)⟩)
  · obtain ⟨u, hu⟩ := exec_next (decode s.fetchWord) s.enterFrame.advance
    rw [hs, hu] at h
    exact .inr (.inr ⟨hf, hn, u, hu, (Host.Outcome.next.inj h).symm⟩)

/-- Settles O14: a step is the state itself, an empty cycle, or an instruction, and every instruction completes. -/
theorem everyStepAnswersANextState : Obligations.EveryStepAnswersANextState := by
  intro s
  obtain ⟨-, -, hs⟩ | ⟨-, hs⟩ | ⟨-, -, hs⟩ := step_cases s
  · exact ⟨s, hs⟩
  · exact ⟨s.enterFrame.leaveCycle, hs⟩
  · obtain ⟨u, hu⟩ := exec_next (decode s.fetchWord) s.enterFrame.advance
    exact ⟨u.leaveCycle, by rw [hs, hu]; rfl⟩

/-! ### Memory stays canonical -/

/-- Settles O17: the frame driver leaves memory alone, and an instruction keeps it or stores bytes, each store keeping the
canonical form. -/
theorem stepKeepsMemoryCanonical : Obligations.StepKeepsMemoryCanonical := by
  intro s t hwf hstep
  obtain ⟨-, -, rfl⟩ | ⟨-, rfl⟩ | ⟨-, -, u, hu, rfl⟩ := step_eq_next_cases hstep
  · exact hwf
  · simpa using hwf
  · rw [State.leaveCycle_mem]
    exact exec_mem_wf hu (by simpa using hwf)

/-! ### The wait stays at its get-key -/

theorem State.fetchWord_congr {s t : State} (hpc : t.pc = s.pc) (hmem : t.mem = s.mem) : t.fetchWord = s.fetchWord := by
  simp only [State.fetchWord, State.readByte, hpc, hmem]

theorem State.leaveCycle_fetchWord (s : State) : s.leaveCycle.fetchWord = s.fetchWord :=
  State.fetchWord_congr s.leaveCycle_pc s.leaveCycle_mem

/-- A get-key that waits afterwards has gone back to its own address (45_keypad_timer_ops R196). -/
theorem State.awaitKey_pc_of_waiting {s : State} {x : Reg} (h : (s.awaitKey x).kw = .awaitingRelease) :
    (s.awaitKey x).pc = s.pc - 2 := by
  cases hkw : s.kw with
  | idle =>
    rw [State.awaitKey_of_idle hkw]
    simp
  | awaitingRelease =>
    cases hc : s.held s.kwCand with
    | true =>
      rw [State.awaitKey_of_cand_held hkw hc]
      simp
    | false =>
      rw [State.awaitKey_of_cand_released hkw hc] at h
      simp at h

/-- Settles O18: only a get-key starts or keeps a wait, and it then goes back to its own address in unchanged memory; any
other instruction would have to run during a wait, where the word at pc is a get-key. -/
theorem stepKeepsTheWaitAtItsGetKey : Obligations.StepKeepsTheWaitAtItsGetKey := by
  intro s t hinv hstep
  obtain ⟨-, -, rfl⟩ | ⟨-, rfl⟩ | ⟨-, -, u, hu, rfl⟩ := step_eq_next_cases hstep
  · exact hinv
  · intro hkw
    rw [State.leaveCycle_fetchWord, State.enterFrame_fetchWord]
    exact hinv (by simpa using hkw)
  · intro hkw
    rw [State.leaveCycle_kw] at hkw
    rw [State.leaveCycle_fetchWord]
    by_cases hi : ∃ x, decode s.fetchWord = .ldKey x
    · obtain ⟨x, hx⟩ := hi
      rw [hx] at hu
      obtain rfl := Host.Outcome.next.inj hu
      have hpc : (s.enterFrame.advance.awaitKey x).pc = s.pc := by
        rw [State.awaitKey_pc_of_waiting hkw]
        simp
      rw [State.fetchWord_congr hpc (by simp)]
      exact ⟨x, hx⟩
    · have hkeep : u.kw = s.enterFrame.advance.kw := exec_kw_of_not_ldKey hu fun x hx => hi ⟨x, hx⟩
      exact absurd (hinv (by simpa using hkeep.symm.trans hkw)) hi

/-! ### The frame position and the configuration -/

theorem State.leaveCycle_inFrame (s : State) : InFrame s.leaveCycle := by
  obtain ⟨hlt, hs⟩ | ⟨-, hs⟩ := s.leaveCycle_cases
  · rw [hs]
    exact .inr hlt
  · rw [hs]
    exact .inl rfl

/-- Settles O19: a step ends a cycle, which leaves the position inside the frame, or changes nothing at a frame's boundary; no
instruction has the configuration among its pieces. -/
theorem stepKeepsFramePositionAndConfiguration : Obligations.StepKeepsFramePositionAndConfiguration := by
  intro s t hstep
  obtain ⟨-, hc, rfl⟩ | ⟨-, rfl⟩ | ⟨-, -, u, hu, rfl⟩ := step_eq_next_cases hstep
  · exact ⟨.inl hc, rfl⟩
  · exact ⟨State.leaveCycle_inFrame _, by simp⟩
  · exact ⟨State.leaveCycle_inFrame _, by simp [exec_config hu]⟩

end Machine

end Sys2Proof
end

section
/-! PROOFS. Faults: when a step records one, and that the machine then stands still (60_exceptions R210-R214). -/

namespace Sys2Proof

namespace Machine

open Sys2Proof.Safety

/-! ### After a fault -/

/-- With a fault recorded the end of a cycle keeps the timers (60_exceptions R222). -/
theorem State.leaveCycle_onlyChanges_of_fault {s : State} (h : s.fault ≠ none) :
    OnlyChanges [.dirty, .inputs, .position, .signals] s s.leaveCycle := by
  obtain ⟨-, -, hkeep⟩ := timersCountDownOncePerFrame s
  obtain ⟨hdt, hst⟩ := hkeep h
  intro p hp
  cases p with
  | delay => exact hdt
  | sound => exact hst
  | _ => exact s.leaveCycle_onlyChanges _ (by simp_all)

theorem State.enterFrame_of_cycle_ne_zero {s : State} (h : s.cycle ≠ 0) : s.enterFrame = s := if_neg h

/-- Settles O15: at a frame's boundary the step is the identity; inside the faulting frame no keys are latched, the cycle is
empty, and leaving it keeps the timers. -/
theorem recordedFaultHaltsTheMachine : Obligations.RecordedFaultHaltsTheMachine := by
  intro s hf
  obtain ⟨-, -, hs⟩ | ⟨⟨-, hc⟩ | ⟨hnone, -⟩, hs⟩ | ⟨hnone, -, -⟩ := step_cases s
  · exact ⟨s, hs, rfl, Unchanged.refl _ s, fun _ => rfl⟩
  · rw [State.enterFrame_of_cycle_ne_zero hc] at hs
    exact ⟨s.leaveCycle, hs, s.leaveCycle_fault, State.leaveCycle_onlyChanges_of_fault hf, fun h => absurd h hc⟩
  · exact absurd hnone hf
  · exact absurd hnone hf

/-! ### The instructions that fault -/

/-- Only RET with no live entry and CALL with 16 have the fault register among their pieces (60_exceptions R211). -/
theorem writes_fault {i : Instr} {s : State} (h : Writes i s .fault) :
    (i = .ret ∧ s.sp.val = 0) ∨ ∃ nnn, i = .call nnn ∧ s.sp.val = 16 := by
  cases i with
  | ret =>
    by_cases hsp : s.sp.val = 0
    · exact .inl ⟨rfl, hsp⟩
    · simp [Writes, hsp] at h
  | call nnn =>
    by_cases hsp : s.sp.val < 16
    · simp [Writes, hsp] at h
    · exact .inr ⟨nnn, rfl, by omega⟩
  | ldKey _ => simp [Writes] at h
  | _ => simp [Writes, IsCell, bytesFromI] at h

/-- An instruction that starts without a fault and records one has taken it: nothing else has happened (60_exceptions R212). -/
theorem exec_fault {i : Instr} {s t : State} {c : Fault} (h : exec i s = .next t) (hs : s.fault = none)
    (ht : t.fault = some c) :
    t = s.raiseFault c ∧ ((c = .stackOverflow ∧ s.sp.val = 16 ∧ ∃ nnn, i = .call nnn) ∨
      (c = .stackUnderflow ∧ s.sp.val = 0 ∧ i = .ret)) := by
  have hw : Writes i s .fault := by
    by_contra hw
    have hkeep : t.fault = s.fault := exec_same h hw
    simp [hkeep, hs] at ht
  obtain ⟨rfl, hsp⟩ | ⟨nnn, rfl, hsp⟩ := writes_fault hw
  · obtain rfl : s.returnFromCall = t := Host.Outcome.next.inj h
    rw [State.returnFromCall_of_zero hsp] at ht ⊢
    obtain rfl := Option.some.inj ht
    exact ⟨rfl, .inr ⟨rfl, hsp, rfl⟩⟩
  · obtain rfl : s.callTo (zextAddr nnn) = t := Host.Outcome.next.inj h
    rw [State.callTo_of_full hsp] at ht ⊢
    obtain rfl := Option.some.inj ht
    exact ⟨rfl, .inl ⟨rfl, hsp, nnn, rfl⟩⟩

/-- Taking a fault undoes the cycle's advance (60_exceptions R212; 40_execution R92). -/
theorem State.advance_raiseFault_onlyChanges (s : State) (c : Fault) : OnlyChanges [.fault] s (s.advance.raiseFault c) := by
  intro p hp
  cases p <;> simp_all [Part.Same, State.reg, State.held]

/-- Settles O16: a fault can only come from the instruction of the step; the instruction took it, which undoes the advance, and
the end of a cycle with a fault recorded keeps the timers. -/
theorem onlyCallAndRetFaultAndPrecisely : Obligations.OnlyCallAndRetFaultAndPrecisely := by
  intro s t c hs hstep ht
  obtain ⟨hf, -, -⟩ | ⟨-, rfl⟩ | ⟨-, -, u, hu, rfl⟩ := step_eq_next_cases hstep
  · exact absurd hs hf
  · simp [hs] at ht
  · rw [State.leaveCycle_fault] at ht
    obtain ⟨rfl, hcause⟩ := exec_fault hu (by simpa using hs) ht
    refine ⟨by simpa using hcause, ?_⟩
    have hfault : (s.enterFrame.advance.raiseFault c).fault ≠ none := by simp
    exact Unchanged.trans (Unchanged.mono s.enterFrame_unchanged fun _ => .inr)
      (Unchanged.trans (Unchanged.mono (State.advance_raiseFault_onlyChanges _ c) (by simp))
        (Unchanged.mono (State.leaveCycle_onlyChanges_of_fault hfault) (by simp)))

end Machine

end Sys2Proof
end

section
/-! PROOFS. The pieces of the state that no instruction reads (10_state R28, R31, R34): a meaning commutes with replacing
them. -/

namespace Sys2Proof

namespace Machine

open Sys2Proof.Safety

/-- The host-side pieces of the state. -/
structure HostSide where
  st : Byte
  dirty : Bool
  inputs : List HostFrame
  cycle : Nat
  renderOut : Bool
  audioOut : Bool

def State.host (s : State) : HostSide := ⟨s.st, s.dirty, s.inputs, s.cycle, s.renderOut, s.audioOut⟩

def State.setHost (s : State) (h : HostSide) : State :=
  { s with
    st := h.st, dirty := h.dirty, inputs := h.inputs, cycle := h.cycle, renderOut := h.renderOut, audioOut := h.audioOut }

/-- What an instruction executed in `s` leaves in the host-side pieces: FX18 writes ST, 00E0 and DXYN set `dirty`. -/
def HostSide.after (h : HostSide) (i : Instr) (s : State) : HostSide :=
  match i with
  | .ldST x => { h with st := s.reg x }
  | .cls | .drw _ _ _ => { h with dirty := true }
  | _ => h

/-! ### The operations commute with replacing the host side -/

theorem State.skipIf_setHost (s : State) (h : HostSide) (c : Bool) : (s.setHost h).skipIf c = (s.skipIf c).setHost h := by
  cases c <;> rfl

theorem State.setLogicResult_setHost (s : State) (h : HostSide) (x : Reg) (r : Byte) :
    (s.setHost h).setLogicResult x r = (s.setLogicResult x r).setHost h := by
  cases hq : s.config.quirks.quirkVfReset with
  | false =>
    rw [State.setLogicResult_of_no_reset hq, State.setLogicResult_of_no_reset (s := s.setHost h) hq]
    rfl
  | true =>
    rw [State.setLogicResult_of_reset hq, State.setLogicResult_of_reset (s := s.setHost h) hq]
    rfl

theorem State.advanceIndexIf_setHost (s : State) (h : HostSide) (q : Bool) (x : Reg) :
    (s.setHost h).advanceIndexIf q x = (s.advanceIndexIf q x).setHost h := by
  cases q <;> rfl

theorem State.callTo_setHost (s : State) (h : HostSide) (w : Word) : (s.setHost h).callTo w = (s.callTo w).setHost h := by
  by_cases hsp : s.sp.val < 16
  · rw [State.callTo_of_lt hsp, State.callTo_of_lt (s := s.setHost h) hsp]
    rfl
  · have hfull : s.sp.val = 16 := by omega
    rw [State.callTo_of_full hfull, State.callTo_of_full (s := s.setHost h) hfull]
    rfl

theorem State.returnFromCall_setHost (s : State) (h : HostSide) :
    (s.setHost h).returnFromCall = s.returnFromCall.setHost h := by
  by_cases hsp : s.sp.val = 0
  · rw [State.returnFromCall_of_zero hsp]
    exact State.returnFromCall_of_zero (s := s.setHost h) hsp
  · obtain ⟨k, hk⟩ := Nat.exists_eq_succ_of_ne_zero hsp
    rw [State.returnFromCall_of_succ (by omega) hk]
    exact State.returnFromCall_of_succ (s := s.setHost h) (by omega) hk

theorem State.scanKeys_setHost (s : State) (h : HostSide) : (s.setHost h).scanKeys = s.scanKeys.setHost h := by
  have hk : (s.setHost h).heldKeys = s.heldKeys := rfl
  unfold State.scanKeys
  rw [hk]
  split <;> rfl

theorem State.awaitKey_setHost (s : State) (h : HostSide) (x : Reg) : (s.setHost h).awaitKey x = (s.awaitKey x).setHost h := by
  cases hkw : s.kw with
  | idle =>
    rw [State.awaitKey_of_idle hkw, State.awaitKey_of_idle (s := s.setHost h) hkw, State.scanKeys_setHost]
    rfl
  | awaitingRelease =>
    cases hc : s.held s.kwCand with
    | true =>
      rw [State.awaitKey_of_cand_held hkw hc, State.awaitKey_of_cand_held (s := s.setHost h) hkw hc]
      rfl
    | false =>
      rw [State.awaitKey_of_cand_released hkw hc, State.awaitKey_of_cand_released (s := s.setHost h) hkw hc]
      rfl

theorem State.writeBytes_setHost (s : State) (h : HostSide) (a : Word) (bs : List Byte) :
    (s.setHost h).writeBytes a bs = (s.writeBytes a bs).setHost h := by
  induction bs generalizing s a with
  | nil => rfl
  | cons b bs ih => exact ih (s.writeByte a b) (a + 1)

theorem State.storeRegs_setHost (s : State) (h : HostSide) (x : Reg) :
    (s.setHost h).storeRegs x = (s.storeRegs x).setHost h := by
  unfold State.storeRegs
  rw [← State.advanceIndexIf_setHost, ← State.writeBytes_setHost]
  rfl

theorem State.readInto_setHost (s : State) (h : HostSide) (a : Word) (rs : List Reg) :
    (s.setHost h).readInto a rs = (s.readInto a rs).setHost h := by
  induction rs generalizing s a with
  | nil => rfl
  | cons r rs ih => exact ih (s.setReg r (s.readByte a)) (a + 1)

theorem State.loadRegs_setHost (s : State) (h : HostSide) (x : Reg) :
    (s.setHost h).loadRegs x = (s.loadRegs x).setHost h := by
  unfold State.loadRegs
  rw [← State.advanceIndexIf_setHost, ← State.readInto_setHost]
  rfl

/-- The rows of a draw depend on memory alone. -/
theorem Canvas.drawRows_congr {s t : State} (h : t.mem = s.mem) (c : Canvas) (a : Word) (x0 y0 : Nat) (ks : List Nat) :
    c.drawRows t a x0 y0 ks = c.drawRows s a x0 y0 ks := by
  induction ks generalizing c with
  | nil => rfl
  | cons k ks ih => simp only [Canvas.drawRows, State.readByte, h, ih]

theorem State.drawSprite_setHost (s : State) (h : HostSide) (x y : Reg) (n : Nibble) :
    (s.setHost h).drawSprite x y n = s.drawSprite x y n := 
  Canvas.drawRows_congr (s := s) (t := s.setHost h) rfl _ _ _ _ _

/-! ### Every instruction -/

/-- No meaning reads the host side. -/
theorem exec_setHost (i : Instr) (s : State) (h : HostSide) :
    exec i (s.setHost h) = onNext (State.setHost · (h.after i s)) (exec i s) := by
  cases i with
  | ret => exact congrArg Host.Outcome.next (s.returnFromCall_setHost h)
  | call nnn => exact congrArg Host.Outcome.next (s.callTo_setHost h _)
  | seImm _ _ | sneImm _ _ | seReg _ _ | sneReg _ _ | skp _ | sknp _ =>
    exact congrArg Host.Outcome.next (s.skipIf_setHost h _)
  | orReg x _ | andReg x _ | xorReg x _ => exact congrArg Host.Outcome.next (s.setLogicResult_setHost h x _)
  | drw x y n => exact congrArg (fun c => Host.Outcome.next ((s.setHost h).showCanvas c)) (s.drawSprite_setHost h x y n)
  | ldKey x => exact congrArg Host.Outcome.next (s.awaitKey_setHost h x)
  | ldBcd x => exact congrArg Host.Outcome.next (s.writeBytes_setHost h s.i _)
  | storeRegs x => exact congrArg Host.Outcome.next (s.storeRegs_setHost h x)
  | loadRegs x => exact congrArg Host.Outcome.next (s.loadRegs_setHost h x)
  | _ => rfl

/-- What an instruction leaves in the host-side pieces. -/
theorem exec_host {i : Instr} {s t : State} (h : exec i s = .next t) : t.host = s.host.after i s := by
  have hself := exec_setHost i s s.host
  rw [h] at hself
  exact congrArg State.host (Host.Outcome.next.inj (h.symm.trans hself))

/-- Two states that agree outside the host side differ by replacing it. -/
theorem State.eq_setHost {s t : State} (h : OnlyChanges [.sound, .dirty, .inputs, .position, .signals] s t)
    (hmem : t.mem = s.mem) : t = s.setHost t.host := by
  have hv : t.v = s.v := Vector.ext fun r hr => h (.reg ⟨r, hr⟩) (by simp)
  have hstack : t.stack = s.stack := Vector.ext fun k hk => h (.slot ⟨k, hk⟩) (by simp)
  have hkey : t.key = s.key := Vector.ext fun k hk => h (.heldKey ⟨k, hk⟩) (by simp)
  have hdisp : t.disp = s.disp := Display.ext_cells fun x y => h (.cell x y) (by simp)
  have hi : t.i = s.i := h .index (by simp)
  have hpc : t.pc = s.pc := h .counter (by simp)
  have hsp : t.sp = s.sp := h .depth (by simp)
  have hdt : t.dt = s.dt := h .delay (by simp)
  have hfault : t.fault = s.fault := h .fault (by simp)
  have hconfig : t.config = s.config := h .config (by simp)
  have hdraws : t.draws = s.draws := h .draws (by simp)
  obtain ⟨hkw, hcand⟩ : t.kw = s.kw ∧ t.kwCand = s.kwCand := h .wait (by simp)
  simp only [State.setHost, State.host, ← hmem, ← hv, ← hstack, ← hkey, ← hdisp, ← hi, ← hpc, ← hsp, ← hdt, ← hfault,
    ← hconfig, ← hdraws, ← hkw, ← hcand]

theorem State.setHost_onlyChanges (s : State) (h : HostSide) :
    OnlyChanges [.sound, .dirty, .inputs, .position, .signals] s (s.setHost h) := by
  intro p hp
  cases p <;> simp_all [Part.Same, State.reg, State.held, State.setHost]

/-- Settles O58: the second state is the first with its host side replaced, and every meaning commutes with that. -/
theorem hostSideStateIsNeverRead : Obligations.HostSideStateIsNeverRead := by
  intro i s s' t hagree hmem ht
  have ht' := exec_setHost i s s'.host
  rw [← State.eq_setHost hagree hmem, ht] at ht'
  exact ⟨_, ht', t.setHost_onlyChanges _, rfl⟩

/-- An instruction neither reads nor writes the frame position. -/
theorem exec_withCycle {i : Instr} {s t : State} (h : exec i s = .next t) (c : Nat) :
    exec i { s with cycle := c } = .next { t with cycle := c } := by
  have hset := exec_setHost i s { s.host with cycle := c }
  have hafter : ({ s.host with cycle := c } : HostSide).after i s = { t.host with cycle := c } := by
    rw [exec_host h]
    cases i <;> rfl
  rw [h, hafter] at hset
  exact hset

end Machine

end Sys2Proof
end

section
/-! PROOFS. The frame driver: what the frame's start and end do, and that the steps of a frame make the frame of the spec
(40_execution R90-R93; 60_exceptions R222-R226). -/

namespace Sys2Proof

namespace Machine

open Sys2Proof.Safety

/-! ### The step and the frame's start -/

/-- Settles O8: the bytes the decoder is given are the ones the fetch reads, and the frame's start does not touch pc. -/
theorem stepRunsTheDecodedInstruction : Obligations.StepRunsTheDecodedInstruction := by
  intro s i hf hn hdec
  have hi : decode s.fetchWord = i := congrArg Prod.fst (Except.ok.inj hdec)
  obtain ⟨hfault, -⟩ | ⟨⟨hfault, -⟩ | ⟨-, hzero⟩, -⟩ | ⟨-, -, hs⟩ := step_cases s
  · exact absurd hf hfault
  · exact absurd hf hfault
  · omega
  · rw [hi] at hs
    exact ⟨hs, congrArg (· + 2) s.enterFrame_pc⟩

theorem State.enterFrame_of_cycle_eq_zero {s : State} (h : s.cycle = 0) : s.enterFrame = s.startFrame := if_pos h

theorem State.startFrame_of_nil {s : State} (h : s.inputs = []) : s.startFrame = s := by
  simp only [State.startFrame, h]

theorem State.startFrame_of_cons {s : State} {f : HostFrame} {fs : List HostFrame} (h : s.inputs = f :: fs) :
    s.startFrame = { s with key := f.keys } := by
  simp only [State.startFrame, h]

/-- Settles O9: at a frame's boundary the start of the frame replaces the keypad by the first input's, if there is one. -/
theorem frameStartLatchesTheKeys : Obligations.FrameStartLatchesTheKeys := by
  intro s
  refine ⟨State.enterFrame_of_cycle_ne_zero, fun hc f fs hin => ⟨fun k => ?_, s.enterFrame_unchanged⟩, fun hc hin => ?_⟩
  · rw [State.enterFrame_of_cycle_eq_zero hc, State.startFrame_of_cons hin]
    rfl
  · rw [State.enterFrame_of_cycle_eq_zero hc, State.startFrame_of_nil hin]

/-! ### The frame's end -/

@[simp] theorem State.signalRender_renderOut (s : State) : s.signalRender.renderOut = s.dirty := by
  unfold State.signalRender
  split <;> rfl

@[simp] theorem State.signalRender_inputs (s : State) : s.signalRender.inputs = s.inputs.tail := by
  unfold State.signalRender
  split <;> simp_all

theorem State.signalRender_dirty (s : State) :
    s.signalRender.dirty = true ↔ s.dirty = true ∧ ∀ f fs, s.inputs = f :: fs → f.repaints = false := by
  unfold State.signalRender
  split <;> simp_all

@[simp] theorem State.endFrame_renderOut (s : State) : s.endFrame.renderOut = s.dirty := by
  unfold State.endFrame
  dsimp only
  split <;> simp

@[simp] theorem State.endFrame_audioOut (s : State) : s.endFrame.audioOut = (s.endFrame.st != 0) := rfl

@[simp] theorem State.endFrame_dirty (s : State) : s.endFrame.dirty = s.signalRender.dirty := by
  unfold State.endFrame
  dsimp only
  split <;> simp

@[simp] theorem State.endFrame_inputs (s : State) : s.endFrame.inputs = s.inputs.tail := by
  unfold State.endFrame
  dsimp only
  split <;> simp

@[simp] theorem State.endFrame_cycle (s : State) : s.endFrame.cycle = 0 := rfl

/-- Settles O11: the last cycle hands over to the frame's end, whose audio signal comes after the timers, so that ST = 1 gives
no tone. -/
theorem frameEndSignalsRenderAndAudio : Obligations.FrameEndSignalsRenderAndAudio := by
  intro s hlast
  have hframe := s.leaveCycle_onlyChanges
  obtain ⟨hin, -⟩ | ⟨-, hs⟩ := s.leaveCycle_cases
  · exact absurd hin hlast
  · rw [hs] at hframe ⊢
    refine ⟨s.endFrame_renderOut, by simp, fun hf hst => ?_, ?_, s.endFrame_inputs, s.endFrame_cycle, hframe⟩
    · obtain ⟨-, htick⟩ := State.endFrame_timers_of_no_fault hf
      rw [State.endFrame_audioOut, htick, hst]
      rfl
    · rw [State.endFrame_dirty, State.signalRender_dirty]

/-! ### The spec's cycle -/

theorem cycle_of_fault {s : State} (h : s.fault ≠ none) : cycle s = s := if_pos (Option.isSome_iff_ne_none.mpr h)

theorem cycle_of_no_fault {s t : State} (hf : s.fault = none) (h : exec (decode s.fetchWord) s.advance = .next t) :
    cycle s = t := by
  simp [cycle, hf, h]

/-- What a cycle is: nothing with a fault recorded, otherwise the execution of the fetched word. -/
theorem cycle_cases (s : State) : (s.fault ≠ none ∧ cycle s = s) ∨
    (s.fault = none ∧ exec (decode s.fetchWord) s.advance = .next (cycle s)) := by
  by_cases hf : s.fault = none
  · obtain ⟨t, ht⟩ := exec_next (decode s.fetchWord) s.advance
    exact .inr ⟨hf, by rw [cycle_of_no_fault hf ht, ht]⟩
  · exact .inl ⟨hf, cycle_of_fault hf⟩

theorem cycle_config (s : State) : (cycle s).config = s.config := by
  obtain ⟨-, hs⟩ | ⟨-, hs⟩ := cycle_cases s
  · rw [hs]
  · exact (exec_config hs).trans s.advance_config

theorem cycle_cycle (s : State) : (cycle s).cycle = s.cycle := by
  obtain ⟨-, hs⟩ | ⟨-, hs⟩ := cycle_cases s
  · rw [hs]
  · exact (exec_cycle hs).trans s.advance_cycle

/-- The frame position plays no part in a cycle. -/
theorem cycle_withCycle (s : State) (c : Nat) : cycle { s with cycle := c } = { cycle s with cycle := c } := by
  obtain ⟨hf, hs⟩ | ⟨hf, hs⟩ := cycle_cases s
  · rw [hs]
    exact cycle_of_fault (s := { s with cycle := c }) hf
  · exact cycle_of_no_fault (s := { s with cycle := c }) hf (exec_withCycle hs c)

theorem cycles_withCycle (n : Nat) (s : State) (c : Nat) :
    cycles n { s with cycle := c } = { cycles n s with cycle := c } := by
  induction n generalizing s with
  | zero => rfl
  | succ n ih => rw [cycles, cycle_withCycle, ih, cycles]

theorem State.endFrame_withCycle (s : State) (c : Nat) : ({ s with cycle := c } : State).endFrame = s.endFrame := by
  have hsig : ({ s with cycle := c } : State).signalRender = { s.signalRender with cycle := c } := by
    unfold State.signalRender
    dsimp only
    split <;> rfl
  unfold State.endFrame
  rw [hsig]
  dsimp only
  split <;> rfl

/-! ### The steps of a frame -/

/-- Inside a frame, or at its start without a fault, a step is the spec's cycle and the count. -/
theorem step_eq_cycle {s : State} (hrun : s.cycle ≠ 0 ∨ s.fault = none) (hn : s.config.cyclesPerFrame ≠ 0) :
    step s = .next (cycle s.enterFrame).leaveCycle := by
  obtain ⟨hf, hc, -⟩ | ⟨⟨hf, -⟩ | ⟨-, hzero⟩, hs⟩ | ⟨hf, -, hs⟩ := step_cases s
  · exact absurd hrun (by simp [hf, hc])
  · rw [hs, cycle_of_fault (by simpa using hf)]
  · exact absurd hzero hn
  · obtain ⟨t, ht⟩ := exec_next (decode s.fetchWord) s.enterFrame.advance
    rw [hs, ht, cycle_of_no_fault (by simpa using hf) (by rwa [State.enterFrame_fetchWord])]
    rfl

theorem core_run_zero (s : State) : Host.Core.run core 0 s = .next s := rfl

theorem core_run_succ {s t : State} (h : core.step s = .next t) (k : Nat) :
    Host.Core.run core (k + 1) s = Host.Core.run core k t := by
  simp only [Host.Core.run, h]

/-- The k + 1 cycles that are left of a frame, and its end. -/
theorem core_run_rest (k : Nat) (s : State) (hk : s.cycle + (k + 1) = s.config.cyclesPerFrame)
    (hrun : s.cycle ≠ 0 ∨ s.fault = none) :
    Host.Core.run core (k + 1) s = .next (cycles (k + 1) s.enterFrame).endFrame := by
  induction k generalizing s with
  | zero =>
    have hlast : (cycle s.enterFrame).leaveCycle = (cycle s.enterFrame).endFrame :=
      if_neg (by simp only [cycle_cycle, cycle_config, State.enterFrame_cycle, State.enterFrame_config]; omega)
    rw [core_run_succ (step_eq_cycle hrun (by omega)), core_run_zero, hlast]
    rfl
  | succ k ih =>
    have hcount : (cycle s.enterFrame).leaveCycle = { cycle s.enterFrame with cycle := s.cycle + 1 } := by
      rw [State.leaveCycle, if_pos]
      · simp only [cycle_cycle, State.enterFrame_cycle]
      · simp only [cycle_cycle, cycle_config, State.enterFrame_cycle, State.enterFrame_config]
        omega
    have hpos : ({ cycle s.enterFrame with cycle := s.cycle + 1 } : State).cycle ≠ 0 := Nat.succ_ne_zero _
    have hleft : s.cycle + 1 + (k + 1) = (cycle s.enterFrame).config.cyclesPerFrame := by
      rw [cycle_config, State.enterFrame_config]
      omega
    rw [core_run_succ (step_eq_cycle hrun (by omega)), hcount, ih _ hleft (.inl hpos),
      State.enterFrame_of_cycle_ne_zero hpos, cycles_withCycle, State.endFrame_withCycle]
    rfl

theorem core_run_of_step_self {s : State} (h : step s = .next s) (k : Nat) : Host.Core.run core k s = .next s := by
  induction k with
  | zero => rfl
  | succ k ih => rw [core_run_succ h, ih]

theorem frame_of_fault {s : State} (h : s.fault ≠ none) : frame s = s := if_pos (Option.isSome_iff_ne_none.mpr h)

theorem frame_of_no_fault {s : State} (h : s.fault = none) :
    frame s = (cycles s.config.cyclesPerFrame s.startFrame).endFrame := if_neg (by simp [h])

/-- Settles O12: with a fault recorded both sides stand still; without one the first step latches the keys, and by induction
on the cycles left the steps run the spec's cycles and the last one ends the frame. -/
theorem stepsOfAFrameMakeTheFrame : Obligations.StepsOfAFrameMakeTheFrame := by
  intro s hc
  have hstart := State.enterFrame_of_cycle_eq_zero hc
  by_cases hf : s.fault = none
  · rw [frame_of_no_fault hf, ← hstart]
    cases hn : s.config.cyclesPerFrame with
    | zero =>
      obtain ⟨hfault, -⟩ | ⟨-, hs⟩ | ⟨-, hpos, -⟩ := step_cases s
      · exact absurd hf hfault
      · have hlast : s.enterFrame.leaveCycle = s.enterFrame.endFrame := if_neg (by simp [hn])
        rw [hlast] at hs
        exact core_run_succ hs 0
      · omega
    | succ k =>
      rw [Nat.max_eq_right (by omega)]
      exact core_run_rest k s (by omega) (.inr hf)
  · rw [frame_of_fault hf]
    obtain ⟨-, -, hs⟩ | ⟨⟨-, hpos⟩ | ⟨hnone, -⟩, -⟩ | ⟨hnone, -, -⟩ := step_cases s
    · exact core_run_of_step_self hs _
    · exact absurd hc hpos
    · exact absurd hnone hf
    · exact absurd hnone hf

/-! ### The delay timer over frames -/

theorem exec_dt_of_not_ldDT {i : Instr} {s t : State} (h : exec i s = .next t) (hi : ∀ x, i ≠ .ldDT x) : t.dt = s.dt := by
  have hw : ¬ Writes i s .delay := by
    cases i with
    | ldDT x => exact absurd rfl (hi x)
    | _ => simp [Writes, IsCell, bytesFromI]
  exact exec_same h hw

theorem cycle_dt {s : State} (h : ∀ x, decode s.fetchWord ≠ .ldDT x) : (cycle s).dt = s.dt := by
  obtain ⟨-, hs⟩ | ⟨-, hs⟩ := cycle_cases s
  · rw [hs]
  · exact (exec_dt_of_not_ldDT hs h).trans s.advance_dt

theorem cycles_dt (n : Nat) (s : State) (h : ∀ c x, c < n → decode (cycles c s).fetchWord ≠ .ldDT x) :
    (cycles n s).dt = s.dt := by
  induction n generalizing s with
  | zero => rfl
  | succ n ih =>
    rw [cycles, ih _ fun c x hc => h (c + 1) x (by omega)]
    exact cycle_dt fun x => h 0 x (by omega)

/-- One frame without FX15 and without a fault takes one off DT (60_exceptions R222). -/
theorem frame_dt {s : State} (hw : NoDelayWrite s) (hgood : Good (frame s)) : (frame s).dt.toNat = s.dt.toNat - 1 := by
  by_cases hf : s.fault = none
  · rw [frame_of_no_fault hf] at hgood ⊢
    have hend : (cycles s.config.cyclesPerFrame s.startFrame).fault = none := by simpa [Good] using hgood
    obtain ⟨hdt, -⟩ := State.endFrame_timers_of_no_fault hend
    rw [hdt, countDown_toNat, cycles_dt _ _ hw, State.startFrame_dt]
  · rw [frame_of_fault hf] at hgood
    exact absurd hgood hf

theorem frames_of_fault {s : State} (h : s.fault ≠ none) (n : Nat) : frames n s = s := by
  induction n with
  | zero => rfl
  | succ n ih => rw [frames, frame_of_fault h, ih]

/-- A run of frames that ends without a fault began without one (60_exceptions R214). -/
theorem good_of_good_frames {s : State} {n : Nat} (h : Good (frames n s)) : Good s := by
  by_contra hf
  rw [frames_of_fault hf] at h
  exact hf h

/-- Settles O13: by induction on the frames; a fault would have stayed to the end, so each frame takes one off DT. -/
theorem delayTimerDecaysByFrames : Obligations.DelayTimerDecaysByFrames := by
  intro n
  induction n with
  | zero => exact fun s _ _ => rfl
  | succ n ih =>
    intro s hw hgood
    have hone := frame_dt (s := s) (hw 0 (by omega)) (good_of_good_frames (n := n) hgood)
    have hrest := ih (frame s) (fun j hj => hw (j + 1) (by omega)) hgood
    rw [frames, hrest, hone]
    omega

end Machine

end Sys2Proof
end

section
/-! PROOFS. Memory and the fetch (20_memory R51, R57, R60, R62), and memory and registers after reset (70_reset_and_hazards
R240-R244). -/

namespace Sys2Proof

namespace Machine

open Sys2Proof.Safety

/-! ### Reading, writing and fetching -/

theorem State.readByte_add (s : State) (a : Word) (k : Nat) :
    s.readByte (a + BitVec.ofNat 16 k) = s.mem.read ((a.toNat + k) % 4096) := by
  rw [State.readByte, memIndex_add]

/-- Settles O5: the word of two bytes is 256 times the first plus the second, and the next address is reduced like any
other. -/
theorem fetchReadsTwoBytesHighByteFirst : Obligations.FetchReadsTwoBytesHighByteFirst := by
  intro s
  have hnext : s.readByte (s.pc + 1) = s.mem.read ((s.pc.toNat + 1) % 4096) := s.readByte_add s.pc 1
  rw [State.fetchWord, wordOfBytes_toNat, hnext, Nat.mul_comm]
  rfl

theorem wordOfBytes_bytesOfWord (op : Word) : wordOfBytes (op.extractLsb' 8 8) (op.extractLsb' 0 8) = op := by
  apply BitVec.eq_of_toNat_eq
  rw [wordOfBytes_toNat, BitVec.extractLsb'_toNat, BitVec.extractLsb'_toNat, Nat.shiftRight_eq_div_pow,
    Nat.shiftRight_eq_div_pow]
  omega

/-- Settles O6: the two bytes stored at pc read back in order, and they make the word again. -/
theorem fetchSeesEarlierStores : Obligations.FetchSeesEarlierStores := by
  intro s op
  have hread := s.read_writeBytes s.pc (bytesOfWord op) (by simp [bytesOfWord])
  have hhigh := hread 0 (by simp [bytesOfWord])
  rw [word_add_zero] at hhigh
  have hlow : (s.writeBytes s.pc (bytesOfWord op)).readByte (s.pc + 1) = op.extractLsb' 0 8 :=
    hread 1 (by simp [bytesOfWord])
  rw [State.fetchWord, State.writeBytes_pc, hhigh, hlow]
  exact wordOfBytes_bytesOfWord op

/-- Settles O7: both accesses reduce their address mod 4096, and memory returns the last write to the same index. -/
theorem readReturnsTheLastWrite : Obligations.ReadReturnsTheLastWrite :=
  fun s a c b => Memory.read_write s.mem (memIndex a) (memIndex c) b

/-! ### Reset -/

/-- Settles O20: nothing is listed in memory, no get-key waits, no cycle has run, no fault is recorded. -/
theorem resetMeetsTheInvariants : Obligations.ResetMeetsTheInvariants :=
  ⟨State.reset_mem_wf, fun hkw => absurd hkw (by decide), .inl rfl, rfl⟩

/-- Settles O21: the registers and the stack are vectors of zeros, the other fields are given. -/
theorem resetZeroesRegistersTimersAndStack : Obligations.ResetZeroesRegistersTimersAndStack :=
  ⟨fun r => Vector.getElem_replicate r.isLt, rfl, rfl, fun k => Vector.getElem_replicate k.isLt, rfl, rfl, rfl⟩

/-- Settles O22: the buffer is the blank one, the keypad a vector of released keys, the other fields are given. -/
theorem resetLeavesDisplayKeysAndFaultClear : Obligations.ResetLeavesDisplayKeysAndFaultClear :=
  ⟨Display.cell_blank, rfl, fun k => Vector.getElem_replicate k.isLt, rfl, rfl, rfl⟩

/-! ### Launch -/

theorem launch_of_fits {rom : List Byte} (h : rom.length ≤ maxRomLength)
    (config : Config) (font : Vector Byte 80) (inputs : List HostFrame) :
    launch config font inputs (some rom) =
      .next { State.reset with mem := resetMemory font rom, config := config, inputs := inputs } :=
  if_pos h

theorem resetMemory_wf (font : Vector Byte 80) {rom : List Byte} (h : rom.length ≤ maxRomLength) :
    (resetMemory font rom).wf := by
  have hrom : rom.length ≤ 3584 := h
  exact Memory.load_wf (Memory.load_wf State.reset_mem_wf 0x000 font.toList (by simp)) 0x200 rom (by omega)

/-- Past the font's 80 bytes an unlisted cell reads as zero. -/
theorem resetByte_of_ge {a : Nat} (h : 80 ≤ a) : resetByte a = 0 := by
  have hlen : fontTable.length ≤ a := h
  rw [resetByte, List.getD_eq_default _ _ hlen]

theorem resetMemory_read_font (font : Vector Byte 80) (rom : List Byte) {k : Nat} (h : k < 80) :
    (resetMemory font rom).read k = font[k] := by
  rw [resetMemory, Memory.read_load, dif_neg (by omega), Memory.read_load, dif_pos (by simpa using h)]
  simp

theorem resetMemory_read_rom (font : Vector Byte 80) (rom : List Byte) {k : Nat} (h : k < rom.length) :
    (resetMemory font rom).read (0x200 + k) = rom[k] := by
  rw [resetMemory, Memory.read_load, dif_pos (by omega)]
  simp

theorem resetMemory_read_rest (font : Vector Byte 80) (rom : List Byte) {a : Nat} (hfont : 80 ≤ a)
    (hrom : a < 0x200 ∨ 0x200 + rom.length ≤ a) : (resetMemory font rom).read a = 0 := by
  rw [resetMemory, Memory.read_load, dif_neg (by omega), Memory.read_load, dif_neg (by simp; omega)]
  exact resetByte_of_ge hfont

/-- Settles O23: launch loads the font and then the ROM, which do not overlap, into memory that lists nothing. -/
theorem launchLaysOutFontAndRom : Obligations.LaunchLaysOutFontAndRom := by
  intro config font inputs rom hlen
  exact ⟨_, launch_of_fits hlen config font inputs, rfl, resetMemory_wf font hlen, fun k h => resetMemory_read_font font rom h,
    fun k h => resetMemory_read_rom font rom h, fun a hlo hhi => resetMemory_read_rest font rom hlo (.inl hhi),
    fun a ha => resetMemory_read_rest font rom (by omega) (.inr ha)⟩

end Machine

end Sys2Proof
end

section
/-! PROOFS. Control flow: BNNN, calls and returns, and the skips (41_control_flow R100-R109; 60_exceptions R211, R212;
45_keypad_timer_ops R190, R191). -/

namespace Sys2Proof

namespace Machine

open Sys2Proof.Safety

/-! ### BNNN -/

@[simp] theorem zextByte_toNat (b : Byte) : (zextByte b).toNat = b.toNat := BitVec.toNat_setWidth_of_le (by decide)

/-- Settles O26: a 12-bit and an 8-bit number have a sum below 2^16. -/
theorem jumpWithOffsetAddsV0 : Obligations.JumpWithOffsetAddsV0 := by
  intro nnn s
  refine ⟨s.setPc (zextAddr nnn + zextByte (s.reg 0)), rfl, ?_, s.setPc_onlyChanges _⟩
  have hnnn := nnn.isLt
  have hv0 := (s.reg 0).isLt
  rw [State.setPc_pc, BitVec.toNat_add, zextAddr_toNat, zextByte_toNat]
  omega

/-! ### CALL and RET -/

theorem exec_call (nnn : Addr) (s : State) : exec (.call nnn) s = .next (s.callTo (zextAddr nnn)) := rfl

theorem exec_ret (s : State) : exec .ret s = .next s.returnFromCall := rfl

/-- Settles O27: with a free slot CALL is one push and a jump. -/
theorem callPushesTheReturnAddress : Obligations.CallPushesTheReturnAddress := by
  intro nnn s h
  refine ⟨s.callTo (zextAddr nnn), exec_call nnn s, ?_, ?_, ?_, State.callTo_onlyChanges h _⟩ <;> rw [State.callTo_of_lt h]
  · exact Vector.getElem_set_self h
  · exact zextAddr_toNat nnn

/-- Settles O28: with a live entry RET is one pop, and the slots stay. -/
theorem returnPopsTheReturnAddress : Obligations.ReturnPopsTheReturnAddress := by
  intro s k hk
  have hframe := State.returnFromCall_onlyChanges (s := s) (by omega)
  rw [State.returnFromCall_of_succ k.isLt hk] at hframe
  exact ⟨_, (exec_ret s).trans (congrArg _ (State.returnFromCall_of_succ k.isLt hk)), rfl, rfl, hframe⟩

/-- Settles O29: without room CALL, and without an entry RET, is `raiseFault`. -/
theorem stackFaultsAreTaken : Obligations.StackFaultsAreTaken :=
  ⟨fun nnn s h => ⟨s.raiseFault .stackOverflow, (exec_call nnn s).trans (congrArg _ (State.callTo_of_full h _)), rfl, rfl,
      s.raiseFault_onlyChanges _⟩,
    fun s h => ⟨s.raiseFault .stackUnderflow, (exec_ret s).trans (congrArg _ (State.returnFromCall_of_zero h)), rfl, rfl,
      s.raiseFault_onlyChanges _⟩⟩

/-- Settles O30: the call counted one entry and stored the return address in its slot; the return takes both back. -/
theorem callThenReturnComesBack : Obligations.CallThenReturnComesBack := by
  intro nnn s t u h ht hsp hslot
  obtain ⟨t', ht', hentry, hdepth, -, -⟩ := callPushesTheReturnAddress nnn s h
  obtain rfl : t' = t := Host.Outcome.next.inj (ht'.symm.trans ht)
  obtain ⟨w, hw, hwsp, hwpc, -⟩ := returnPopsTheReturnAddress u ⟨s.sp.val, h⟩ (by rw [hsp, hdepth])
  exact ⟨w, hw, hwpc.trans (hslot.trans hentry), Fin.ext hwsp⟩

/-! ### The skips -/

theorem State.skipIf_pc (s : State) (c : Bool) : (s.skipIf c).pc = if c = true then s.pc + 2 else s.pc := by
  cases c <;> rfl

/-- Settles O31: each is a skip on the comparison, respectively on its negation. -/
theorem immediateSkips : Obligations.ImmediateSkips := fun x nn s =>
  ⟨⟨s.skipIf (s.reg x == nn), rfl, by simp [State.skipIf_pc], s.skipIf_onlyChanges _⟩,
    ⟨s.skipIf (s.reg x != nn), rfl, by simp [State.skipIf_pc], s.skipIf_onlyChanges _⟩⟩

/-- Settles O32: each is a skip on the comparison, respectively on its negation. -/
theorem registerSkips : Obligations.RegisterSkips := fun x y s =>
  ⟨⟨s.skipIf (s.reg x == s.reg y), rfl, by simp [State.skipIf_pc], s.skipIf_onlyChanges _⟩,
    ⟨s.skipIf (s.reg x != s.reg y), rfl, by simp [State.skipIf_pc], s.skipIf_onlyChanges _⟩⟩

theorem lowNibble_toNat (b : Byte) : (lowNibble b).toNat = b.toNat % 16 := by
  rw [lowNibble, BitVec.toNat_and]
  exact Nat.and_two_pow_sub_one_eq_mod b.toNat 4

theorem keyIndex_eq {b : Byte} {k : Key} (h : k.val = b.toNat % 16) : keyIndex b = k := by
  apply Fin.ext
  rw [keyIndex, Fin.val_ofNat, lowNibble_toNat, h]
  omega

/-- Settles O51: each is a skip on the state of the key numbered by the low nibble, respectively on its negation. -/
theorem keySkips : Obligations.KeySkips := by
  intro x s k hk
  have hkey := keyIndex_eq hk
  exact ⟨⟨s.skipIf (s.held (keyIndex (s.reg x))), rfl, by rw [State.skipIf_pc, hkey], s.skipIf_onlyChanges _⟩,
    ⟨s.skipIf (!s.held (keyIndex (s.reg x))), rfl, by cases h : s.held k <;> simp [State.skipIf_pc, hkey, h],
      s.skipIf_onlyChanges _⟩⟩

end Machine

end Sys2Proof
end

section
/-! PROOFS. Registers, the ALU, the random byte and the timers (42_alu R122-R139; 45_keypad_timer_ops R192-R194). -/

namespace Sys2Proof

namespace Machine

open Sys2Proof.Safety

/-! ### One register or timer -/

/-- Settles O34: each is one `setReg`, and the sum of bytes wraps mod 256. -/
theorem copyAndAddImmediateWriteOneRegister : Obligations.CopyAndAddImmediateWriteOneRegister := fun x y nn s =>
  ⟨⟨s.setReg x (s.reg y), rfl, s.reg_setReg_self x _, s.setReg_onlyChanges x _⟩,
    ⟨s.setReg x (s.reg x + nn), rfl, by rw [State.reg_setReg_self, BitVec.toNat_add], s.setReg_onlyChanges x _⟩⟩

/-- Settles O52: each is one write. -/
theorem timerReadsAndWrites : Obligations.TimerReadsAndWrites := fun x s =>
  ⟨⟨s.setReg x s.dt, rfl, s.reg_setReg_self x _, s.setReg_onlyChanges x _⟩,
    ⟨s.setDt (s.reg x), rfl, rfl, s.setDt_onlyChanges _⟩, ⟨s.setSt (s.reg x), rfl, rfl, s.setSt_onlyChanges _⟩⟩

/-! ### A register and the flag (42_alu R123) -/

theorem State.reg_setRegThenFlag_vF (s : State) (x : Reg) (r f : Byte) : (s.setRegThenFlag x r f).reg vF = f := by
  rw [State.reg_setRegThenFlag, if_pos rfl]

theorem State.reg_setRegThenFlag_self (s : State) {x : Reg} (h : x ≠ vF) (r f : Byte) :
    (s.setRegThenFlag x r f).reg x = r := by
  rw [State.reg_setRegThenFlag, if_neg h, if_pos rfl]

/-- The logic instructions share one write: VX, and VF = 0 after it under the option (42_alu R124). -/
theorem State.setLogicResult_spec (s : State) (x : Reg) (r : Byte) :
    (s.config.quirks.quirkVfReset = false →
      (s.setLogicResult x r).reg x = r ∧ OnlyChanges [.reg x] s (s.setLogicResult x r)) ∧
    (s.config.quirks.quirkVfReset = true →
      (s.setLogicResult x r).reg vF = 0 ∧ (x ≠ vF → (s.setLogicResult x r).reg x = r) ∧
      OnlyChanges [.reg x, .reg vF] s (s.setLogicResult x r)) := by
  refine ⟨fun h => ?_, fun h => ?_⟩
  · rw [State.setLogicResult_of_no_reset h]
    exact ⟨s.reg_setReg_self x r, s.setReg_onlyChanges x r⟩
  · rw [State.setLogicResult_of_reset h]
    exact ⟨s.reg_setRegThenFlag_vF x r 0, fun hx => s.reg_setRegThenFlag_self hx r 0, s.setRegThenFlag_onlyChanges x r 0⟩

/-- Settles O35: the three instructions differ only in the result they write. -/
theorem logicResultsAndFlagReset : Obligations.LogicResultsAndFlagReset := by
  intro x y s i r hmem
  have hexec : exec i s = .next (s.setLogicResult x r) := by
    simp only [List.mem_cons, List.not_mem_nil, or_false, Prod.mk.injEq] at hmem
    obtain ⟨rfl, rfl⟩ | ⟨rfl, rfl⟩ | ⟨rfl, rfl⟩ := hmem <;> rfl
  exact ⟨s.setLogicResult x r, hexec, s.setLogicResult_spec x r⟩

theorem flagByte_toNat (c : Bool) : (flagByte c).toNat = if c = true then 1 else 0 := by
  cases c <;> rfl

/-- Settles O36: the operands are read before the writes, and the flag is written last. -/
theorem addSetsCarry : Obligations.AddSetsCarry := by
  intro x y s
  refine ⟨s.setRegThenFlag x (s.reg x + s.reg y) (carry (s.reg x) (s.reg y)), rfl, fun hx => ?_, ?_,
    s.setRegThenFlag_onlyChanges x _ _⟩
  · rw [State.reg_setRegThenFlag_self s hx, BitVec.toNat_add]
  · simp only [State.reg_setRegThenFlag_vF, carry, flagByte_toNat, decide_eq_true_eq]

/-- The difference of two bytes, over the integers. -/
theorem toNat_sub_eq_emod (a b : Byte) : ((a - b).toNat : Int) = (a.toNat - b.toNat : Int) % 256 := by
  have ha := a.isLt
  have hb := b.isLt
  rw [BitVec.toNat_sub]
  omega

theorem notBorrow_toNat (a b : Byte) : (notBorrow a b).toNat = if a.toNat < b.toNat then 0 else 1 := by
  simp only [notBorrow, flagByte_toNat, decide_eq_true_eq, ge_iff_le]
  split <;> split <;> omega

/-- What a subtraction leaves: the difference mod 256 and, written last, the flag that is 0 on a borrow (42_alu R131). -/
theorem State.setDifference_spec (s : State) (x : Reg) (a b : Byte) :
    (x ≠ vF → (((s.setRegThenFlag x (a - b) (notBorrow a b)).reg x).toNat : Int) = (a.toNat - b.toNat : Int) % 256) ∧
    ((s.setRegThenFlag x (a - b) (notBorrow a b)).reg vF).toNat = (if a.toNat < b.toNat then 0 else 1) ∧
    OnlyChanges [.reg x, .reg vF] s (s.setRegThenFlag x (a - b) (notBorrow a b)) := by
  refine ⟨fun hx => ?_, ?_, s.setRegThenFlag_onlyChanges x _ _⟩
  · rw [State.reg_setRegThenFlag_self s hx, toNat_sub_eq_emod]
  · rw [State.reg_setRegThenFlag_vF, notBorrow_toNat]

/-- Settles O37: the two subtractions differ in the order of their operands. -/
theorem subtractionsSetNotBorrow : Obligations.SubtractionsSetNotBorrow := fun x y s =>
  ⟨⟨_, rfl, s.setDifference_spec x (s.reg x) (s.reg y)⟩, ⟨_, rfl, s.setDifference_spec x (s.reg y) (s.reg x)⟩⟩

theorem bitOutRight_toNat (b : Byte) : (bitOutRight b).toNat = b.toNat % 2 := by
  rw [bitOutRight, BitVec.toNat_and]
  exact Nat.and_one_is_mod b.toNat

theorem bitOutLeft_toNat (b : Byte) : (bitOutLeft b).toNat = b.toNat / 128 := by
  rw [bitOutLeft, BitVec.toNat_ushiftRight, Nat.shiftRight_eq_div_pow]

/-- Settles O38: both shifts read the same operand, VY or VX by the option, and write the flag last. -/
theorem shiftsByOneSetTheBitPutOut : Obligations.ShiftsByOneSetTheBitPutOut := by
  intro x y s v hv
  obtain rfl : s.shiftOperand x y = v := hv.symm
  refine ⟨⟨s.setRegThenFlag x (s.shiftOperand x y >>> 1) (bitOutRight (s.shiftOperand x y)), rfl, fun hx => ?_, ?_,
      s.setRegThenFlag_onlyChanges x _ _⟩,
    ⟨s.setRegThenFlag x (s.shiftOperand x y <<< 1) (bitOutLeft (s.shiftOperand x y)), rfl, fun hx => ?_, ?_,
      s.setRegThenFlag_onlyChanges x _ _⟩⟩
  · rw [State.reg_setRegThenFlag_self s hx, BitVec.toNat_ushiftRight, Nat.shiftRight_eq_div_pow]
  · rw [State.reg_setRegThenFlag_vF, bitOutRight_toNat]
  · rw [State.reg_setRegThenFlag_self s hx, BitVec.toNat_shiftLeft, Nat.shiftLeft_eq]
  · rw [State.reg_setRegThenFlag_vF, bitOutLeft_toNat]

/-! ### The random byte -/

/-- Settles O39: the mask is a bitwise and, and the draw is counted. -/
theorem randomByteIsMasked : Obligations.RandomByteIsMasked := by
  intro x nn s
  have hreg : (s.setReg x (Config.randomByte s.draws &&& nn)).countDraw.reg x = Config.randomByte s.draws &&& nn :=
    s.reg_setReg_self x _
  refine ⟨(s.setReg x (Config.randomByte s.draws &&& nn)).countDraw, rfl, fun k => ?_, rfl,
    OnlyChanges.append (s.setReg_onlyChanges x _) (State.countDraw_onlyChanges _)⟩
  rw [hreg, BitVec.getLsbD_and, Bool.and_eq_true, and_comm]

end Machine

end Sys2Proof
end

section
/-! PROOFS. The index register and the instructions that access memory through it (43_index_memory R151-R160). -/

namespace Sys2Proof

namespace Machine

open Sys2Proof.Safety

/-! ### FX1E and FX29 -/

theorem glyphAddress_toNat (b : Byte) : (glyphAddress b).toNat = 5 * (b.toNat % 16) := by
  rw [glyphAddress, BitVec.toNat_mul, zextByte_toNat, lowNibble_toNat]
  change 5 * (b.toNat % 16) % 65536 = _
  omega

/-- Settles O41: each is one `setI`; the first sum wraps as 16-bit sums do, the second product is too small to wrap. -/
theorem indexAdditionAndGlyphAddress : Obligations.IndexAdditionAndGlyphAddress := fun x s =>
  ⟨⟨s.setI (s.i + zextByte (s.reg x)), rfl, by rw [State.setI_i, BitVec.toNat_add, zextByte_toNat], s.setI_onlyChanges _⟩,
    ⟨s.setI (glyphAddress (s.reg x)), rfl, glyphAddress_toNat _, s.setI_onlyChanges _⟩⟩

/-! ### FX33 -/

theorem exec_ldBcd (x : Reg) (s : State) : exec (.ldBcd x) s = .next (s.writeBytes s.i (bcdDigits (s.reg x))) := rfl

/-- The three digits of a byte, stored from I upwards, as they read back (43_index_memory R154, R156). -/
theorem State.readByte_bcdDigits (s : State) (b : Byte) :
    ((s.writeBytes s.i (bcdDigits b)).readByte s.i).toNat = b.toNat / 100 ∧
    ((s.writeBytes s.i (bcdDigits b)).readByte (s.i + 1)).toNat = b.toNat / 10 % 10 ∧
    ((s.writeBytes s.i (bcdDigits b)).readByte (s.i + 2)).toNat = b.toNat % 10 := by
  have hb := b.isLt
  have hread := s.read_writeBytes s.i (bcdDigits b) (by simp [bcdDigits])
  have hhundreds := hread 0 (by simp [bcdDigits])
  have htens : (s.writeBytes s.i (bcdDigits b)).readByte (s.i + 1) = BitVec.ofNat 8 (b.toNat / 10 % 10) :=
    hread 1 (by simp [bcdDigits])
  have hones : (s.writeBytes s.i (bcdDigits b)).readByte (s.i + 2) = BitVec.ofNat 8 (b.toNat % 10) :=
    hread 2 (by simp [bcdDigits])
  rw [word_add_zero] at hhundreds
  rw [hhundreds, htens, hones]
  simp only [bcdDigits, List.getElem_cons_zero, BitVec.toNat_ofNat]
  omega

/-- Settles O42: the digits are stored in order and read back, and a number below 256 is its digits. -/
theorem bcdStoresTheThreeDigits : Obligations.BcdStoresTheThreeDigits := by
  intro x s
  obtain ⟨hhundreds, htens, hones⟩ := s.readByte_bcdDigits (s.reg x)
  have hv := (s.reg x).isLt
  refine ⟨_, exec_ldBcd x s, ?_, ?_, ?_, ?_, s.writeBytes_onlyChanges (bcdDigits (s.reg x))⟩ <;> omega

/-! ### FX55 and FX65 -/

theorem State.advanceIndexIf_i (s : State) (q : Bool) (x : Reg) :
    (s.advanceIndexIf q x).i = if q = true then s.i + BitVec.ofNat 16 (x.val + 1) else s.i := by
  cases q <;> rfl

theorem State.storeRegs_i (s : State) (x : Reg) : (s.storeRegs x).i =
    if s.config.quirks.quirkStoreAdvancesI = true then s.i + BitVec.ofNat 16 (x.val + 1) else s.i := by
  rw [State.storeRegs, State.advanceIndexIf_i, State.writeBytes_i]

theorem State.loadRegs_i (s : State) (x : Reg) : (s.loadRegs x).i =
    if s.config.quirks.quirkLoadAdvancesI = true then s.i + BitVec.ofNat 16 (x.val + 1) else s.i := by
  rw [State.loadRegs, State.advanceIndexIf_i, State.readInto_i]

theorem regsThrough_getElem_eq {x r : Reg} (h : r ≤ x) :
    (regsThrough x)[r.val]'(by rw [regsThrough_length]; exact Nat.lt_succ_of_le h) = r :=
  Fin.ext (regsThrough_getElem x r.val _)

theorem State.storeRegs_readByte (s : State) {x r : Reg} (h : r ≤ x) :
    (s.storeRegs x).readByte (s.i + BitVec.ofNat 16 r.val) = s.reg r := by
  have hlen : ((regsThrough x).map s.reg).length = x.val + 1 := by rw [List.length_map, regsThrough_length]
  have hr : r.val < x.val + 1 := Nat.lt_succ_of_le h
  have hread := s.read_writeBytes s.i ((regsThrough x).map s.reg) (by omega) r.val (by omega)
  rw [List.getElem_map, regsThrough_getElem_eq h] at hread
  rwa [State.readByte, State.storeRegs, State.advanceIndexIf_mem]

theorem State.loadRegs_reg (s : State) {x r : Reg} (h : r ≤ x) :
    (s.loadRegs x).reg r = s.readByte (s.i + BitVec.ofNat 16 r.val) := by
  have hlen := regsThrough_length x
  have hr : r.val < x.val + 1 := Nat.lt_succ_of_le h
  have hread := s.reg_readInto s.i (regsThrough x) (regsThrough_nodup x) r.val (by omega)
  rw [regsThrough_getElem_eq h] at hread
  rw [← hread, State.loadRegs]
  exact State.reg_congr (State.advanceIndexIf_v _ _ x) r

/-- Settles O43: the registers through VX are stored in order from I, then I may advance. -/
theorem storeRegistersThroughX : Obligations.StoreRegistersThroughX := by
  intro x s
  refine ⟨s.storeRegs x, exec_storeRegs x s, fun r hr => s.storeRegs_readByte hr, s.storeRegs_i x,
    Unchanged.mono (s.storeRegs_unchanged x) fun p hp => ?_⟩
  obtain hbyte | ⟨-, rfl⟩ := hp
  · exact List.mem_cons_of_mem _ hbyte
  · exact List.mem_cons_self

/-- Settles O44: the registers through VX are loaded in order from I, then I may advance. -/
theorem loadRegistersThroughX : Obligations.LoadRegistersThroughX := by
  intro x s
  refine ⟨s.loadRegs x, exec_loadRegs x s, fun r hr => s.loadRegs_reg hr, s.loadRegs_i x,
    Unchanged.mono (s.loadRegs_unchanged x) fun p hp => ?_⟩
  obtain hreg | ⟨-, hindex⟩ := hp
  · exact .inr hreg
  · exact .inl hindex

/-- Settles O45: the load reads, from the same addresses, the memory in which the store left each register. -/
theorem storeThenLoadRestoresRegisters : Obligations.StoreThenLoadRestoresRegisters := by
  intro x s t u ht hi hmem
  obtain rfl : s.storeRegs x = t := Host.Outcome.next.inj ht
  refine ⟨u.loadRegs x, exec_loadRegs x u, fun r hr => ?_⟩
  rw [State.loadRegs_reg u hr, hi, State.readByte, hmem]
  exact s.storeRegs_readByte hr

end Machine

end Sys2Proof
end

section
/-! PROOFS. DXYN as a set of inverted cells, and two draws in a row (44_display R171-R179). -/

namespace Sys2Proof

namespace Machine

open Sys2Proof.Safety

/-! ### The loops of a draw as the sprite's cells -/

/-- A search for the one index at distance `c - x0`. -/
theorem any_range_add_eq (n x0 c : Nat) (p : Nat → Bool) :
    (List.range n).any (fun j => decide (x0 + j = c) && p j) = (decide (x0 ≤ c ∧ c < x0 + n) && p (c - x0)) := by
  rw [Bool.eq_iff_iff]
  simp only [List.any_eq_true, List.mem_range, Bool.and_eq_true, decide_eq_true_eq]
  constructor
  · rintro ⟨j, hj, rfl, hp⟩
    exact ⟨by omega, by rwa [Nat.add_sub_cancel_left]⟩
  · rintro ⟨hc, hp⟩
    exact ⟨c - x0, by omega, by omega, hp⟩

theorem spriteRowsAt_eq_spriteBit (s : State) (x y : Reg) (n : Nibble) (cx : Fin 64) (cy : Fin 32) :
    spriteRowsAt s s.i (originColumn (s.reg x)) (originRow (s.reg y)) (List.range n.toNat) cx cy = spriteBit s x y n cx cy := by
  have hrow (row : Byte) (x0 : Nat) : rowBitAt row x0 bitPositions cx = _ :=
    any_range_add_eq 8 x0 cx.val fun j => row.getLsbD (7 - j)
  rw [spriteRowsAt, any_range_add_eq _ _ _ fun k => rowBitAt (s.readByte (s.i + BitVec.ofNat 16 k)) _ bitPositions cx, hrow,
    ← Bool.and_assoc, ← Bool.decide_and]
  simp only [spriteBit, and_comm, and_assoc]

theorem State.drawSprite_cell (s : State) (x y : Reg) (n : Nibble) (cx : Fin 64) (cy : Fin 32) :
    (s.drawSprite x y n).disp.cell cx cy = (s.disp.cell cx cy ^^ spriteBit s x y n cx cy) := by
  rw [← spriteRowsAt_eq_spriteBit]
  exact Canvas.drawRows_cell ⟨s.disp, false⟩ s s.i _ _ _ List.pairwise_lt_range cx cy

/-- Settles O47: the rows and bits of the loops lie on exactly the sprite's cells, and showing the canvas writes the buffer,
the dirty flag and VF. -/
theorem drawInvertsTheCellsOfTheSprite : Obligations.DrawInvertsTheCellsOfTheSprite := fun x y n s =>
  ⟨s.showCanvas (s.drawSprite x y n), exec_drw x y n s, s.drawSprite_cell x y n, rfl, s.showCanvas_unchanged _⟩

/-! ### Two draws -/

/-- The sprite is the same after a draw whose origin registers are not VF. -/
theorem spriteBit_showCanvas (s : State) (c : Canvas) {x y : Reg} (hx : x ≠ vF) (hy : y ≠ vF) (n : Nibble) :
    spriteBit (s.showCanvas c) x y n = spriteBit s x y n := by
  have hreg : ∀ r, r ≠ vF → (s.showCanvas c).reg r = s.reg r := fun r hr =>
    s.showCanvas_unchanged c (.reg r) (by simp [IsCell, hr])
  funext cx cy
  simp only [spriteBit, State.readByte, State.showCanvas_i, State.showCanvas_mem, hreg x hx, hreg y hy]

theorem flagByte_eq_one (c : Bool) : flagByte c = 1 ↔ c = true := by
  cases c <;> decide

theorem flagByte_cases (c : Bool) : flagByte c = 1 ∨ flagByte c = 0 := by
  cases c <;> decide

/-- Settles O49: the second draw inverts the cells of the first again, and it clears a cell exactly if the first one had
set it. -/
theorem drawingTwiceRestoresTheDisplay : Obligations.DrawingTwiceRestoresTheDisplay := by
  intro x y n s t w hx hy ht hw
  obtain rfl : s.showCanvas (s.drawSprite x y n) = t := Host.Outcome.next.inj ht
  obtain rfl : (s.showCanvas (s.drawSprite x y n)).showCanvas _ = w := Host.Outcome.next.inj hw
  have hcell : ∀ cx cy, ((s.showCanvas (s.drawSprite x y n)).drawSprite x y n).disp.cell cx cy = s.disp.cell cx cy := by
    intro cx cy
    rw [State.drawSprite_cell, spriteBit_showCanvas s _ hx hy, State.showCanvas_disp, State.drawSprite_cell, Bool.xor_assoc,
      Bool.xor_self, Bool.xor_false]
  refine ⟨Display.ext_cells hcell, ?_, ?_⟩ <;> rw [State.reg_showCanvas_vF]
  · exact flagByte_cases _
  · rw [flagByte_eq_one, State.drawSprite_collided]
    refine exists_congr fun cx => exists_congr fun cy => ?_
    rw [hcell, State.showCanvas_disp, State.drawSprite_cell]
    cases s.disp.cell cx cy <;> simp

/-- Every cell set; V0 = V1 = 0 and I = 0, where the font's first row byte 0xF0 lies. -/
def allCellsSet : State := { State.reset with disp := Vector.replicate 32 (Vector.replicate 64 true) }

theorem allCellsSet_cell (cx : Fin 64) (cy : Fin 32) : allCellsSet.disp.cell cx cy = true := by
  simp [allCellsSet, Display.cell]

theorem spriteBit_allCellsSet : spriteBit allCellsSet 0 1 1 0 0 = true := by decide

/-- Refutes O50: on a display whose cells are all set DRW V0, V1, 1 clears four cells, and the second draw meets those four
clear cells only: no collision, although the sprite has visible bits. -/
theorem not_secondDrawFlagAsWrittenInTheXorLaw : ¬ Obligations.SecondDrawFlagAsWrittenInTheXorLaw := by
  intro h
  have hx : (0 : Reg) ≠ vF := by decide
  have hy : (1 : Reg) ≠ vF := by decide
  have hflag := (h 0 1 1 allCellsSet _ _ hx hy (exec_drw 0 1 1 _) (exec_drw 0 1 1 _)).mpr ⟨0, 0, spriteBit_allCellsSet⟩
  obtain ⟨-, -, hcollides⟩ := drawingTwiceRestoresTheDisplay 0 1 1 allCellsSet _ _ hx hy (exec_drw 0 1 1 _) (exec_drw 0 1 1 _)
  obtain ⟨cx, cy, -, hclear⟩ := hcollides.mp hflag
  exact absurd hclear (by simp [allCellsSet_cell])

end Machine

end Sys2Proof
end

section
/-! PROOFS. The choices and the waiting of FX0A (45_keypad_timer_ops R196-R199), and the reserved words (30_encoding R76). -/

namespace Sys2Proof

namespace Machine

open Sys2Proof.Safety

/-! ### The choice among several held keys -/

theorem pickKey_nil (n : Nat) (k : Key) : pickKey n k [] = k := by
  simp [pickKey, Nat.mod_one]

/-- The keys that some free value picks are the listed ones. -/
theorem mem_iff_exists_pickKey (k j : Key) (ks : List Key) : j ∈ k :: ks ↔ ∃ n, pickKey n k ks = j := by
  constructor
  · intro hj
    obtain ⟨n, hn, rfl⟩ := List.mem_iff_getElem.mp hj
    rw [List.length_cons] at hn
    exact ⟨n, by rw [pickKey, Nat.mod_eq_of_lt hn, List.getD_eq_getElem]⟩
  · rintro ⟨n, rfl⟩
    have hn : n % (ks.length + 1) < (k :: ks).length := Nat.mod_lt _ (Nat.succ_pos _)
    rw [pickKey, List.getD_eq_getElem _ _ hn]
    exact List.getElem_mem hn

/-- The scan with keys held: a draw is counted exactly if there is a choice. -/
theorem State.scanKeys_of_cons {s : State} {k : Key} {ks : List Key} (h : s.heldKeys = k :: ks) : s.scanKeys =
    if ks = [] then s.awaitRelease k else (s.awaitRelease (pickKey (Config.keyChoice s.draws) k ks)).countDraw := by
  cases ks <;> simp [State.scanKeys, h]

/-- Settles O54: the scan records the pick, which is the only key when one alone is held, and pc goes back. -/
theorem anyHeldKeyCanBeTheCandidate : Obligations.AnyHeldKeyCanBeTheCandidate := by
  intro x s k ks hkw hkeys
  have hsome : ∃ j, s.held j = true := ⟨k, (s.mem_heldKeys k).mp (by simp [hkeys])⟩
  refine ⟨⟨s.scanKeys.retarget, (exec_ldKey x s).trans (congrArg _ (State.awaitKey_of_idle hkw x)), ?_, ?_, ?_, ?_,
    State.scanKeys_retarget_onlyChanges hsome⟩, fun j => ?_⟩
  · rw [State.scanKeys_of_cons hkeys]
    split <;> rfl
  · rw [State.scanKeys_of_cons hkeys]
    split
    · next hks =>
      rw [hks, pickKey_nil]
      rfl
    · rfl
  · simp
  · rw [State.scanKeys_of_cons hkeys]
    split <;> rfl
  · rw [← s.mem_heldKeys, hkeys]
    exact mem_iff_exists_pickKey k j ks

/-! ### Waiting with no key held -/

theorem State.advance_retarget (s : State) : s.advance.retarget = s := by
  simp [State.advance, State.retarget, State.setPc]

/-- Settles O55: the get-key undoes the advance, so only the frame driver around it changes anything. -/
theorem getKeyWithoutAKeyStaysPut : Obligations.GetKeyWithoutAKeyStaysPut := by
  intro s x hf hn hdec hkw hnone
  have hkey : s.enterFrame.advance.awaitKey x = s.enterFrame := by
    rw [State.awaitKey_of_idle (by simpa using hkw), State.scanKeys_of_none_held (s := s.enterFrame.advance) hnone,
      State.advance_retarget]
  have hstep : step s = .next s.enterFrame.leaveCycle := by
    obtain ⟨hfault, -⟩ | ⟨⟨hfault, -⟩ | ⟨-, hzero⟩, -⟩ | ⟨-, -, hs⟩ := step_cases s
    · exact absurd hf hfault
    · exact absurd hf hfault
    · omega
    · rw [hs, hdec, exec_ldKey, hkey]
      rfl
  exact ⟨_, hstep, Unchanged.trans (Unchanged.mono s.enterFrame_unchanged fun _ => .inr)
    (Unchanged.mono (State.leaveCycle_onlyChanges _) fun _ => .inl)⟩

/-! ### Reserved words -/

theorem exec_of_rowOf_eq_none {i : Instr} (h : rowOf i = none) (s : State) : exec i s = .next s := by
  cases i with
  | reserved0 _ | reserved5 _ _ _ | reserved8 _ _ _ | reserved9 _ _ _ | reservedE _ _ | reservedF _ _ => rfl
  | _ => cases h

/-- Settles O56: a word that matches no row decodes to a reserved instruction, and those are no-ops. -/
theorem reservedWordsAreNoOps : Obligations.ReservedWordsAreNoOps := by
  refine ⟨fun op s hno => ?_, fun nnn x y n nn s => ⟨rfl, rfl, rfl, rfl, rfl, rfl⟩⟩
  obtain ⟨-, hreserved⟩ := decodeSelectsTheMatchingRow op
  exact exec_of_rowOf_eq_none (hreserved.mpr hno) s

end Machine

end Sys2Proof
end
